-- ==== Sys2Proof/Word.lean ====
section
/-! DEFINITION. The two word types of the CORE (spec/00_scope.md R9): 8-bit cells and registers, 16-bit
addresses and pointers. Every value is unsigned and bit 0 is the least significant bit (R11). -/

namespace Sys2Proof

/-- A register, a memory cell, an opcode: 8 bits, unsigned (R9). -/
abbrev Byte := BitVec 8

/-- SP, PC and a memory address: 16 bits, unsigned (R9). -/
abbrev Word := BitVec 16

end Sys2Proof
end

