-- ==== Sys2Proof/Config.lean ====
section
/-! DEFINITION. What is fixed for every machine of this hardware. The CORE's one parameter, `MEM_SIZE`
(spec/00_scope.md R8), is NOT here: it is fixed by the image given to `construct` (R180), so it stands in
the state, and every claim about all states quantifies over it. -/

namespace Sys2Proof.Config

/-- The 16-bit address space: `MEM_SIZE` is at most this (R8, R41). -/
def addressSpace : Nat := 65536

/-- What a cell of memory that the cell list does not name holds. DESIGN CHOICE (log entry 5): a matter of
representation only, since any image can be written as the list of its cells that differ from this byte. -/
def unlistedByte : Byte := 0x00#8

/-- `MEM_SIZE` of `State.reset`. DESIGN CHOICE (log entry 4, unsafe): the spec leaves the size and the
contents of the constructor's image to the host (R8, R185). -/
def resetMemSize : Nat := 65536

end Sys2Proof.Config
end

