-- ==== Sys2Proof/Syntax.lean ====
section
/-! DEFINITION. The 17 instructions of spec/30_encoding.md R64, one constructor per row of the opcode table, and
the operands they name. -/

namespace Sys2Proof

/-- The seven general registers (spec/10_state.md R20). -/
inductive Reg8 where
  | a | b | c | d | e | h | l
deriving DecidableEq, Repr

/-- The eight operand selectors (spec/30_encoding.md R62): a register, or the memory cell at `H ++ L`. -/
inductive Selector where
  | reg (r : Reg8)
  | m
deriving DecidableEq, Repr

/-- What the decoder's fields say (spec/30_encoding.md R65): no operation, or an addition without
carry-in (`k = 0`) or with it (`k = 1`) of the selected operand. -/
inductive Form where
  | nop
  | add (sel : Selector)
  | adc (sel : Selector)
deriving DecidableEq, Repr

/-- The recognised instructions (spec/30_encoding.md R64). No instruction has an immediate or any other
operand field beyond the selector its own row fixes (R68). -/
inductive Instr where
  | nop
  | addB | addC | addD | addE | addH | addL | addM | addA
  | adcB | adcC | adcD | adcE | adcH | adcL | adcM | adcA
deriving DecidableEq, Repr

end Sys2Proof
end

