-- ==== Sys2Proof/WellFormed.lean ====
section
/-! DEFINITION. Which terms stand for something of this hardware. An instruction has no operand field that could
be out of range (spec/30_encoding.md R68), so every term of `Instr` is well formed; the one check the
spec gives is on the image handed to `construct` (spec/00_scope.md R8). -/

namespace Sys2Proof

/-- Each of the 17 rows of R64 fixes all eight bits, so no term of `Instr` is ill formed. -/
def Instr.wellFormed : Instr → Bool
  | .nop => true
  | .addB => true
  | .addC => true
  | .addD => true
  | .addE => true
  | .addH => true
  | .addL => true
  | .addM => true
  | .addA => true
  | .adcB => true
  | .adcC => true
  | .adcD => true
  | .adcE => true
  | .adcH => true
  | .adcL => true
  | .adcM => true
  | .adcA => true

/-- An image has at most 65536 bytes: a longer one is refused at construction (R8, R180). -/
def imageWellFormed (image : List Byte) : Bool :=
  decide (image.length ≤ Config.addressSpace)

end Sys2Proof
end

