-- ==== Sys2Proof/Decode.lean ====
section
/-! DEFINITION. The decoder of spec/30_encoding.md R65, total on all 256 byte values, and the encoder written from
the same tables (R61 to R64). The opcode values are the spec's decision D2 (log entry 2): only 0x80 is
shown by the source. -/

namespace Sys2Proof

/-- Why a byte is no instruction: it is none of the 17 recognised opcodes (R66). -/
inductive DecodeError where
  | unimplemented (op : Byte)
deriving DecidableEq, Repr

/-- The selector a 3-bit field `sss` names (R62). -/
def Selector.ofField (sss : BitVec 3) : Selector :=
  match sss.toNat with
  | 0 => .reg .b
  | 1 => .reg .c
  | 2 => .reg .d
  | 3 => .reg .e
  | 4 => .reg .h
  | 5 => .reg .l
  | 6 => .m
  | _ => .reg .a

/-- The row of R64 that a form is. -/
def Instr.ofForm : Form → Instr
  | .nop => .nop
  | .add (.reg .b) => .addB
  | .add (.reg .c) => .addC
  | .add (.reg .d) => .addD
  | .add (.reg .e) => .addE
  | .add (.reg .h) => .addH
  | .add (.reg .l) => .addL
  | .add .m => .addM
  | .add (.reg .a) => .addA
  | .adc (.reg .b) => .adcB
  | .adc (.reg .c) => .adcC
  | .adc (.reg .d) => .adcD
  | .adc (.reg .e) => .adcE
  | .adc (.reg .h) => .adcH
  | .adc (.reg .l) => .adcL
  | .adc .m => .adcM
  | .adc (.reg .a) => .adcA

/-- The fields of an opcode byte, or none where it is unimplemented (R65, the text of `decode`). -/
def decodeForm (op : Byte) : Option Form :=
  if op = 0x00#8 then
    some .nop
  else if op.extractLsb' 4 4 = 0b1000#4 then
    if op.getLsbD 3 = false then
      some (.add (Selector.ofField (op.extractLsb' 0 3)))
    else
      some (.adc (Selector.ofField (op.extractLsb' 0 3)))
  else
    none

/-- `decode` (R65): it reads the opcode byte and nothing else. -/
def decode (op : Byte) : Except DecodeError Instr :=
  match decodeForm op with
  | some f => .ok (Instr.ofForm f)
  | none => .error (.unimplemented op)

/-- The fields of each row of R64. -/
def Instr.form : Instr → Form
  | .nop => .nop
  | .addB => .add (.reg .b)
  | .addC => .add (.reg .c)
  | .addD => .add (.reg .d)
  | .addE => .add (.reg .e)
  | .addH => .add (.reg .h)
  | .addL => .add (.reg .l)
  | .addM => .add .m
  | .addA => .add (.reg .a)
  | .adcB => .adc (.reg .b)
  | .adcC => .adc (.reg .c)
  | .adcD => .adc (.reg .d)
  | .adcE => .adc (.reg .e)
  | .adcH => .adc (.reg .h)
  | .adcL => .adc (.reg .l)
  | .adcM => .adc .m
  | .adcA => .adc (.reg .a)

/-- The 3-bit field of a selector (R62). -/
def Selector.field : Selector → BitVec 3
  | .reg .b => 0b000#3
  | .reg .c => 0b001#3
  | .reg .d => 0b010#3
  | .reg .e => 0b011#3
  | .reg .h => 0b100#3
  | .reg .l => 0b101#3
  | .m => 0b110#3
  | .reg .a => 0b111#3

/-- The opcode byte of a form: `00000000`, or the ARITH pattern `1 0 0 0 k s s s` (R61, R63). -/
def encodeForm : Form → Byte
  | .nop => 0x00#8
  | .add sel => 0b1000#4 ++ 0b0#1 ++ sel.field
  | .adc sel => 0b1000#4 ++ 0b1#1 ++ sel.field

/-- The one byte of an instruction (R60). -/
def encode (i : Instr) : Byte :=
  encodeForm i.form

/-- The byte that `nbits` bits of a word of the opcode table put at the fetch address: every instruction is
one byte (R60), and the bits above `nbits` are 0. -/
def tableByte (nbits w : Nat) : Byte :=
  BitVec.ofNat 8 (w % 2 ^ nbits)

/-- What the decoder reads from a word of the opcode table. A row wider than one byte is no instruction of
this hardware (R60). -/
def decodeTableWord (nbits w : Nat) : Option Instr :=
  if nbits ≤ 8 then (decode (tableByte nbits w)).toOption else none

end Sys2Proof
end

