-- ==== Sys2Proof/Machine/State.lean ====
section
/-! DEFINITION. Everything the spec gives the machine (spec/10_state.md, section 6), as plain data, and the state
right after construction (spec/70_reset_and_hazards.md R180 to R186). R33: the CORE has no other state. -/

namespace Sys2Proof.Machine

/-- The register file: seven independent 8-bit registers (R20). -/
structure RegFile where
  a : Byte
  b : Byte
  c : Byte
  d : Byte
  e : Byte
  h : Byte
  l : Byte
deriving DecidableEq, Repr

/-- The five condition flags, each one bit, with no architectural layout (R28, R30). -/
structure Flags where
  z : Bool
  s : Bool
  p : Bool
  cy : Bool
  ac : Bool
deriving DecidableEq, Repr

/-- Memory: `MEM_SIZE` cells of 8 bits (spec/20_memory.md R40). `cells` lists the cells that differ from
`Config.unlistedByte`, by strictly rising address. -/
structure Memory where
  size : Nat
  cells : List Host.Cell
deriving DecidableEq, Repr

/-- The canonical form of a memory: addresses strictly rise, no entry equals what an unlisted cell holds, every
entry is a cell that exists, and `MEM_SIZE` is at most 65536 (R8, R40). -/
abbrev Memory.wf (m : Memory) : Prop :=
  m.cells.Pairwise (fun p q => p.1 < q.1) ∧
    (∀ c ∈ m.cells, c.1 < m.size ∧ c.2 ≠ Config.unlistedByte) ∧ m.size ≤ Config.addressSpace

/-- The dispatcher's two states, shown on the output STATUS (R32): 0 is `ready`, 1 is `haltedOnError`. -/
inductive Status where
  | ready
  | haltedOnError
deriving DecidableEq, Repr

/-- Which access a memory error reports (R13, R44). -/
inductive AccessKind where
  | fetch
  | operand
deriving DecidableEq, Repr

/-- The ways a step fails (spec/60_exceptions.md R160 to R163), with the value each reports. -/
inductive StepError where
  | unimplementedOpcode (op : Byte)
  | memoryOutOfRange (kind : AccessKind) (addr : Word)
deriving DecidableEq, Repr

/-- The outcome of a completed step, shown on `step_result` (R13, R164). A payload that the code does not make
valid has no value here (U11, log entry 9). -/
inductive StepResult where
  | ok
  | failed (e : StepError)
deriving DecidableEq, Repr

/-- The whole state of the CORE (spec/10_state.md, section 6). -/
structure State where
  regs : RegFile
  sp : Word
  pc : Word
  flags : Flags
  inte : Byte
  mem : Memory
  status : Status
  stepResult : Option StepResult
deriving DecidableEq, Repr

/-- Where an access of the HOST's has no cell to go to. No step of the CORE ends in one of these: a step that
fails takes the error entry of R166 and answers a next state. -/
inductive Fault where
  /-- Raised by the host port (`hostStep`, `hostReadMem`) for `Mem[a]` with `a >= MEM_SIZE`: no such cell exists
  and the host cannot write it (R36, R41). Safe: the access has no effect. -/
  | hostAddressAbsent (addr : Word)
deriving DecidableEq, Repr

/-- What has no meaning on this hardware. No step of the CORE ends in one of these. -/
inductive Refusal where
  /-- An instruction without a meaning in this model: none is left. Safe: nothing can be claimed of it. -/
  | notModelled (mnemonic : String)
  /-- Raised by `construct` for an image longer than 65536 bytes (R8, R180, U14). Safe: no machine results. -/
  | imageTooLong (bytes : Nat)
  /-- Raised by a host read of `step_result` before the first step: there is no value to read (R186, U12). Safe. -/
  | noStepResult
  /-- Raised by a host read of `step_result.opcode` or `.addr` where the code does not make it valid (R164, U11:
  a model must not read it). Safe. -/
  | payloadNotValid
deriving DecidableEq, Repr

/-- The machine right after construction with the given memory: every register and flag zero, the dispatcher
ready, no step result yet (R181 to R186). -/
def State.constructed (mem : Memory) : State where
  regs := { a := 0#8, b := 0#8, c := 0#8, d := 0#8, e := 0#8, h := 0#8, l := 0#8 }
  sp := 0#16
  pc := 0#16
  flags := { z := false, s := false, p := false, cy := false, ac := false }
  inte := 0#8
  mem := mem
  status := .ready
  stepResult := none

/-- The machine right after reset. Construction is the only reset (R180); the image, which the spec leaves to the
host, is the one with nothing listed over the whole address space (DESIGN CHOICE, log entry 4). -/
def State.reset : State :=
  State.constructed { size := Config.resetMemSize, cells := [] }

end Sys2Proof.Machine
end

