-- ==== Sys2Proof/Machine/Ops.lean ====
section
/-! DEFINITION. The named operations over registers and memory, the read primitive with its bound check, the fetch,
and the two ways a step ends: the commit of a completed step and the error entry of a failed one. -/

namespace Sys2Proof.Machine

/-! ## Registers -/

/-- `x[r]` (spec/00_scope.md R12). -/
def RegFile.get (f : RegFile) : Reg8 → Byte
  | .a => f.a
  | .b => f.b
  | .c => f.c
  | .d => f.d
  | .e => f.e
  | .h => f.h
  | .l => f.l

/-- `x[r] <- v` (R12): no register is hardwired, and writing one changes no other (spec/10_state.md R20). -/
def RegFile.set (f : RegFile) (r : Reg8) (v : Byte) : RegFile :=
  match r with
  | .a => { f with a := v }
  | .b => { f with b := v }
  | .c => { f with c := v }
  | .d => { f with d := v }
  | .e => { f with e := v }
  | .h => { f with h := v }
  | .l => { f with l := v }

/-- `x[r]` of a machine. -/
def State.reg (s : State) (r : Reg8) : Byte :=
  s.regs.get r

/-- The machine with `x[r] <- v`. -/
def State.setReg (s : State) (r : Reg8) (v : Byte) : State :=
  { s with regs := s.regs.set r v }

/-- `F <- flags`: all five at once (R12, spec/10_state.md R29). -/
def State.setFlags (s : State) (f : Flags) : State :=
  { s with flags := f }

/-- The H:L pair, `H ++ L`, a derived read with H the high byte (spec/10_state.md R23, spec/20_memory.md R42). -/
def State.hl (s : State) : Word :=
  s.reg .h ++ s.reg .l

/-! ## Memory -/

/-- What the cell list holds at an address. -/
def lookupCell : List Host.Cell → Nat → Byte
  | [], _ => Config.unlistedByte
  | (a, v) :: rest, k => if k = a then v else lookupCell rest k

/-- The cell list with the value at one address replaced, in canonical form again. -/
def putCell : List Host.Cell → Nat → Byte → List Host.Cell
  | [], k, v => if v = Config.unlistedByte then [] else [(k, v)]
  | (a, w) :: rest, k, v =>
    if k < a then
      if v = Config.unlistedByte then (a, w) :: rest else (k, v) :: (a, w) :: rest
    else if k = a then
      if v = Config.unlistedByte then rest else (k, v) :: rest
    else
      (a, w) :: putCell rest k v

/-- The cell list of an image whose first byte lies at address `k`. -/
def imageCells : Nat → List Byte → List Host.Cell
  | _, [] => []
  | k, v :: vs =>
    if v = Config.unlistedByte then imageCells (k + 1) vs else (k, v) :: imageCells (k + 1) vs

/-- `Mem[a]`, meaningful for `a < MEM_SIZE` (spec/20_memory.md R40). Reading changes nothing (R50). -/
def Memory.cell (m : Memory) (a : Nat) : Byte :=
  lookupCell m.cells a

/-- `Mem[a] <- v` for an existing cell. Only construction and the host write memory (R46). -/
def Memory.put (m : Memory) (a : Nat) (v : Byte) : Memory :=
  { m with cells := putCell m.cells a v }

/-- The memory that construction makes of an image (spec/70_reset_and_hazards.md R180, R185). -/
def Memory.ofImage (image : List Byte) : Memory :=
  { size := image.length, cells := imageCells 0 image }

/-- A memory in which the cell at `a` exists and holds `v`: what loading a program byte there leaves. -/
def Memory.load (m : Memory) (a : Nat) (v : Byte) : Memory :=
  { size := max m.size (a + 1), cells := putCell m.cells a v }

/-- `MemRead(addr, 1, kind)`, the only memory primitive (spec/20_memory.md R44): an address at or above `MEM_SIZE`
is reported, never truncated or wrapped. -/
def State.memRead (s : State) (kind : AccessKind) (addr : Word) : Except StepError Byte :=
  if addr.toNat < s.mem.size then .ok (s.mem.cell addr.toNat)
  else .error (.memoryOutOfRange kind addr)

/-- The fetch: one byte at PC, which is not advanced by it (R43, spec/43_nop_dispatch.md R142). -/
def State.fetch (s : State) : Except StepError Byte :=
  s.memRead .fetch s.pc

/-! ## How a step ends -/

/-- The end of a completed step: PC advances by one modulo 2^16, the outcome is Ok and the dispatcher is ready
(spec/43_nop_dispatch.md R144, R145; spec/10_state.md R26). -/
def State.complete (s : State) : State :=
  { s with pc := s.pc + 1#16, status := .ready, stepResult := some .ok }

/-- Error entry (spec/60_exceptions.md R166), for every error of R161 to R163: nothing is saved, no write of the
step is kept, PC stays at the failing instruction; only `step_result` and STATUS change (R146, R160). -/
def State.raise (s : State) (e : StepError) : State :=
  { s with status := .haltedOnError, stepResult := some (.failed e) }

/-! The return from an error is no operation of the CORE (R167): nothing was saved and nothing is restored. The host
writes state if it wishes (`Machine/HostPort.lean`) and requests another step, which STATUS does not block (R32). -/

end Sys2Proof.Machine
end

