-- ==== Sys2Proof/Machine/Flags.lean ====
section
/-! DEFINITION. The condition-flag logic and the adder (spec/40_alu_flags.md R81 to R90), and the host-only packing of
the flags (spec/92_eei_decisions.md D3). -/

namespace Sys2Proof.Machine

/-- The number of 1 bits of a byte (spec/00_scope.md R11). -/
def popcount (b : Byte) : Nat :=
  (b.getLsbD 0).toNat + (b.getLsbD 1).toNat + (b.getLsbD 2).toNat + (b.getLsbD 3).toNat +
    (b.getLsbD 4).toNat + (b.getLsbD 5).toNat + (b.getLsbD 6).toNat + (b.getLsbD 7).toNat

/-- `parity_even` (R87). -/
def parityEven (b : Byte) : Bool :=
  popcount b % 2 == 0

/-- The 9-bit pre-truncation sum (R81). -/
def intermediate (a b : Byte) (cin : Bool) : BitVec 9 :=
  a.setWidth 9 + b.setWidth 9 + (BitVec.ofBool cin).setWidth 9

/-- The low byte of the sum, the result written to A (R89). -/
def resultByte (i : BitVec 9) : Byte :=
  i.extractLsb' 0 8

/-- `compute_flags` (R83): all five flags from the sum alone. Sign is bit 7 of the truncated byte (R85), Carry is a
sum above 0xFF (R86), and Auxiliary-Carry is always 0: no half-carry is computed (R88). -/
def computeFlags (i : BitVec 9) : Flags where
  z := resultByte i == 0x00#8
  s := i.getLsbD 7
  p := parityEven (resultByte i)
  cy := decide (0xFF < i.toNat)
  ac := false

/-- `alu` (R90). -/
def alu (a b : Byte) (cin : Bool) : Byte × Flags :=
  (resultByte (intermediate a b cin), computeFlags (intermediate a b cin))

/-- The five flags as one byte, for the host only: S Z 0 AC 0 P 1 CY (D3, log entry 17). No instruction reads it. -/
def Flags.pack (f : Flags) : Byte :=
  BitVec.ofBool f.s ++ BitVec.ofBool f.z ++ 0b0#1 ++ BitVec.ofBool f.ac ++ 0b0#1 ++ BitVec.ofBool f.p ++ 0b1#1 ++
    BitVec.ofBool f.cy

/-- The five flags that a packed byte stands for (D3). -/
def Flags.unpack (b : Byte) : Flags where
  z := b.getLsbD 6
  s := b.getLsbD 7
  p := b.getLsbD 2
  cy := b.getLsbD 0
  ac := b.getLsbD 4

end Sys2Proof.Machine
end

