-- ==== Sys2Proof/Machine/Operands.lean ====
section
/-! DEFINITION. The operand read of each selector (spec/40_alu_flags.md R80). -/

namespace Sys2Proof.Machine

/-- `operand(sel)`: a register, which never faults, or the memory byte at `H ++ L`, which faults at or above
`MEM_SIZE` (R80, R163). It is read from the state at the start of the step. -/
def State.operand (s : State) : Selector → Except StepError Byte
  | .reg r => .ok (s.reg r)
  | .m => s.memRead .operand s.hl

end Sys2Proof.Machine
end

