-- ==== Sys2Proof/Machine/Arith.lean ====
section
/-! DEFINITION. The one shape of the sixteen additions (the pseudocode of spec/41_add.md and spec/42_adc.md): read the
operand, add it to A with a carry-in, write A and all five flags, advance PC. -/

namespace Sys2Proof.Machine

/-- The completed addition of `b` and a carry-in to A: every write at once (spec/43_nop_dispatch.md R146). -/
def State.addToA (s : State) (b : Byte) (cin : Bool) : State :=
  (((s.setReg .a (alu (s.reg .a) b cin).1).setFlags (alu (s.reg .a) b cin).2)).complete

/-- An addition: the operand's error is entered with no write kept; otherwise the addition completes. -/
def execArith (sel : Selector) (cin : Bool) (s : State) : Host.Outcome State Fault Refusal :=
  match s.operand sel with
  | .ok b => .next (s.addToA b cin)
  | .error e => .next (s.raise e)

end Sys2Proof.Machine
end

