-- ==== Sys2Proof/Machine/Adc.lean ====
section
/-! DEFINITION. ADC (spec/42_adc.md R120 to R127): the carry-in is F.CY as it was at the start of the step
(spec/40_alu_flags.md R82). -/

namespace Sys2Proof.Machine

/-- ADC B (R120). -/
def execAdcB (s : State) : Host.Outcome State Fault Refusal :=
  execArith (.reg .b) s.flags.cy s

/-- ADC C (R121). -/
def execAdcC (s : State) : Host.Outcome State Fault Refusal :=
  execArith (.reg .c) s.flags.cy s

/-- ADC D (R122). -/
def execAdcD (s : State) : Host.Outcome State Fault Refusal :=
  execArith (.reg .d) s.flags.cy s

/-- ADC E (R123). -/
def execAdcE (s : State) : Host.Outcome State Fault Refusal :=
  execArith (.reg .e) s.flags.cy s

/-- ADC H (R124). -/
def execAdcH (s : State) : Host.Outcome State Fault Refusal :=
  execArith (.reg .h) s.flags.cy s

/-- ADC L (R125). -/
def execAdcL (s : State) : Host.Outcome State Fault Refusal :=
  execArith (.reg .l) s.flags.cy s

/-- ADC M (R126). Error: `MemoryOutOfRange(Operand, H ++ L)` when `H ++ L >= MEM_SIZE` (R163). -/
def execAdcM (s : State) : Host.Outcome State Fault Refusal :=
  execArith .m s.flags.cy s

/-- ADC A (R127). -/
def execAdcA (s : State) : Host.Outcome State Fault Refusal :=
  execArith (.reg .a) s.flags.cy s

end Sys2Proof.Machine
end

