-- ==== Sys2Proof/Machine/Add.lean ====
section
/-! DEFINITION. ADD (spec/41_add.md R100 to R107): the carry-in is 0 (spec/40_alu_flags.md R82). -/

namespace Sys2Proof.Machine

/-- ADD B (R100). -/
def execAddB (s : State) : Host.Outcome State Fault Refusal :=
  execArith (.reg .b) false s

/-- ADD C (R101). -/
def execAddC (s : State) : Host.Outcome State Fault Refusal :=
  execArith (.reg .c) false s

/-- ADD D (R102). -/
def execAddD (s : State) : Host.Outcome State Fault Refusal :=
  execArith (.reg .d) false s

/-- ADD E (R103). -/
def execAddE (s : State) : Host.Outcome State Fault Refusal :=
  execArith (.reg .e) false s

/-- ADD H (R104). -/
def execAddH (s : State) : Host.Outcome State Fault Refusal :=
  execArith (.reg .h) false s

/-- ADD L (R105). -/
def execAddL (s : State) : Host.Outcome State Fault Refusal :=
  execArith (.reg .l) false s

/-- ADD M (R106). Error: `MemoryOutOfRange(Operand, H ++ L)` when `H ++ L >= MEM_SIZE` (R163). -/
def execAddM (s : State) : Host.Outcome State Fault Refusal :=
  execArith .m false s

/-- ADD A (R107). -/
def execAddA (s : State) : Host.Outcome State Fault Refusal :=
  execArith (.reg .a) false s

end Sys2Proof.Machine
end

