-- ==== Sys2Proof/Machine/Nop.lean ====
section
/-! DEFINITION. NOP (spec/43_nop_dispatch.md R140). -/

namespace Sys2Proof.Machine

/-- NOP advances PC and writes no register, flag or memory cell (R140; flags kept by decision D10). -/
def execNop (s : State) : Host.Outcome State Fault Refusal :=
  .next s.complete

end Sys2Proof.Machine
end

