-- ==== Sys2Proof/Machine/Step.lean ====
section
/-! DEFINITION. One step (spec/43_nop_dispatch.md R141): fetch, decode, execute. -/

namespace Sys2Proof.Machine

/-- One `step_req`. The checks run in the order of spec/60_exceptions.md R165: the fetch, the decode, and then the
operand check inside the two M forms. A step always answers a next state; a failed one answers the state of R166. -/
def step (s : State) : Host.Outcome State Fault Refusal :=
  match s.fetch with
  | .error e => .next (s.raise e)
  | .ok op =>
    match decode op with
    | .error (.unimplemented byte) => .next (s.raise (.unimplementedOpcode byte))
    | .ok i => exec i s

/-- The machine with the word of an opcode-table row at the address the next step fetches (log entry 19): the byte
stands at PC, and `MEM_SIZE` is large enough for that cell to exist. -/
def State.withFetchWord (s : State) (nbits w : Nat) : State :=
  { s with mem := s.mem.load s.pc.toNat (tableByte nbits w) }

end Sys2Proof.Machine
end

