-- ==== Sys2Proof/Machine/Asm.lean ====
section
/-! DEFINITION. The assembler syntax of spec/30_encoding.md R69: one instruction per line, upper case, the operand
separated from the mnemonic by white space. A line is a list of characters. -/

namespace Sys2Proof.Machine

/-- White space within a line: blank or tab (log entry 22). -/
def isBlank (c : Char) : Bool :=
  c == ' ' || c == '\t'

/-- The words of a line; `acc` is the word being read. -/
def asmWords : List Char → List Char → List (List Char)
  | [], acc => if acc.isEmpty then [] else [acc]
  | c :: cs, acc =>
    if isBlank c then
      if acc.isEmpty then asmWords cs [] else acc :: asmWords cs []
    else
      asmWords cs (acc ++ [c])

/-- The operand names `B C D E H L M A` (R69). -/
def Selector.name : Selector → Char
  | .reg .b => 'B'
  | .reg .c => 'C'
  | .reg .d => 'D'
  | .reg .e => 'E'
  | .reg .h => 'H'
  | .reg .l => 'L'
  | .m => 'M'
  | .reg .a => 'A'

/-- The selector of an operand name. -/
def selectorOfName (c : Char) : Option Selector :=
  [Selector.reg .b, .reg .c, .reg .d, .reg .e, .reg .h, .reg .l, .m, .reg .a].find? fun sel => Selector.name sel == c

/-- The words of a form: `NOP`, `ADD r` or `ADC r` (R69). -/
def Form.words : Form → List (List Char)
  | .nop => [['N', 'O', 'P']]
  | .add sel => [['A', 'D', 'D'], [Selector.name sel]]
  | .adc sel => [['A', 'D', 'C'], [Selector.name sel]]

/-- The form that the words of a line write, or none: there are no pseudo-instructions, labels or directives (R69). -/
def formOfWords : List (List Char) → Option Form
  | [['N', 'O', 'P']] => some .nop
  | [['A', 'D', 'D'], [r]] => (selectorOfName r).map .add
  | [['A', 'D', 'C'], [r]] => (selectorOfName r).map .adc
  | _ => none

/-- The instruction that a line of assembler text writes. -/
def parseAsm (line : List Char) : Option Instr :=
  (formOfWords (asmWords line [])).map Instr.ofForm

/-- An instruction as a line of assembler text, with one blank before the operand. -/
def printAsm (i : Instr) : List Char :=
  [' '].intercalate (Form.words i.form)

end Sys2Proof.Machine
end

