-- ==== Sys2Proof/Machine/HostPort.lean ====
section
/-! DEFINITION. The block interface (spec/10_state.md R34 to R36): construction, the step request, the host state port
and the outputs. The host acts between steps only (R35), so a run is a list of events in the order they
happen (spec/20_memory.md R52); an access during a step cannot be written down (R189, U13). -/

namespace Sys2Proof.Machine

/-- The five flags by name, for the host's single-flag writes (R34). -/
inductive FlagName where
  | z | s | p | cy | ac
deriving DecidableEq, Repr

/-- What the host can do to the CORE (R34). STATUS and `step_result` are outputs: the host only reads them. -/
inductive HostEvent where
  | construct (image : List Byte)
  | stepReq
  | writeReg (r : Reg8) (v : Byte)
  | writeSp (v : Word)
  | writePc (v : Word)
  | writeFlag (f : FlagName) (v : Bool)
  | writeInte (v : Byte)
  | writeMem (a : Word) (v : Byte)
deriving DecidableEq, Repr

/-- One flag read by name. -/
def Flags.get (f : Flags) : FlagName → Bool
  | .z => f.z
  | .s => f.s
  | .p => f.p
  | .cy => f.cy
  | .ac => f.ac

/-- One flag written by name. -/
def Flags.put (f : Flags) (n : FlagName) (v : Bool) : Flags :=
  match n with
  | .z => { f with z := v }
  | .s => { f with s := v }
  | .p => { f with p := v }
  | .cy => { f with cy := v }
  | .ac => { f with ac := v }

/-- `construct(image)` (spec/70_reset_and_hazards.md R180): the only reset. A longer image than 65536 bytes is
refused (spec/00_scope.md R8, U14). -/
def construct (image : List Byte) : Host.Outcome State Fault Refusal :=
  if imageWellFormed image then .next (State.constructed (Memory.ofImage image))
  else .refused (.imageTooLong image.length)

/-- `Mem[a] <- v` by the host: not at or above `MEM_SIZE` (R36). -/
def hostWriteMem (s : State) (a : Word) (v : Byte) : Host.Outcome State Fault Refusal :=
  if a.toNat < s.mem.size then .next { s with mem := s.mem.put a.toNat v }
  else .fault (.hostAddressAbsent a)

/-- One event at the block interface: a construction, a step, or one host write between steps (R36). -/
def hostStep (ev : HostEvent) (s : State) : Host.Outcome State Fault Refusal :=
  match ev with
  | .construct image => construct image
  | .stepReq => step s
  | .writeReg r v => .next (s.setReg r v)
  | .writeSp v => .next { s with sp := v }
  | .writePc v => .next { s with pc := v }
  | .writeFlag f v => .next (s.setFlags (s.flags.put f v))
  | .writeInte v => .next { s with inte := v }
  | .writeMem a v => hostWriteMem s a v

/-- Events in the order they happen (R52), up to the first that the host port stops. -/
def runEvents : List HostEvent → State → Host.Outcome State Fault Refusal
  | [], s => .next s
  | ev :: evs, s =>
    match hostStep ev s with
    | .next t => runEvents evs t
    | .fault r => .fault r
    | .refused r => .refused r

/-! ## The outputs and the host's reads -/

/-- The output STATUS, one bit: `Ready` is 0, `HaltedOnError` is 1 (R34). -/
def Status.bit : Status → BitVec 1
  | .ready => 0#1
  | .haltedOnError => 1#1

/-- The outcome code (spec/60_exceptions.md R164). -/
def StepResult.code : StepResult → BitVec 2
  | .ok => 0#2
  | .failed (.unimplementedOpcode _) => 1#2
  | .failed (.memoryOutOfRange .fetch _) => 2#2
  | .failed (.memoryOutOfRange .operand _) => 3#2

/-- `step_result.code`: not to be read before the first step (R186). -/
def hostReadCode (s : State) : Host.Outcome (BitVec 2) Fault Refusal :=
  match s.stepResult with
  | none => .refused .noStepResult
  | some r => .next r.code

/-- `step_result.opcode`: valid for code 1 only (R164). -/
def hostReadOpcode (s : State) : Host.Outcome Byte Fault Refusal :=
  match s.stepResult with
  | none => .refused .noStepResult
  | some (.failed (.unimplementedOpcode op)) => .next op
  | some .ok => .refused .payloadNotValid
  | some (.failed (.memoryOutOfRange _ _)) => .refused .payloadNotValid

/-- `step_result.addr`: valid for codes 2 and 3 only (R164). -/
def hostReadAddr (s : State) : Host.Outcome Word Fault Refusal :=
  match s.stepResult with
  | none => .refused .noStepResult
  | some (.failed (.memoryOutOfRange _ addr)) => .next addr
  | some .ok => .refused .payloadNotValid
  | some (.failed (.unimplementedOpcode _)) => .refused .payloadNotValid

/-- `Mem[a]` read by the host: a cell exists only below `MEM_SIZE` (R34). -/
def hostReadMem (s : State) (a : Word) : Host.Outcome Byte Fault Refusal :=
  if a.toNat < s.mem.size then .next (s.mem.cell a.toNat) else .fault (.hostAddressAbsent a)

end Sys2Proof.Machine
end

