-- ==== Sys2Proof/Safety.lean ====
section
/-! DEFINITION. The state invariant that claims use, and what counts as a safe run: one in which every requested step
completes with outcome Ok. A run's end is the host's step count (spec/43_nop_dispatch.md R148, log entry 10). -/

namespace Sys2Proof.Machine

/-- What STATUS shows after the given outcome (spec/10_state.md R32, R145, R186). -/
def statusAfter : Option StepResult → Status
  | none => .ready
  | some .ok => .ready
  | some (.failed _) => .haltedOnError

/-- A recorded error is one that can happen: the opcode is unimplemented (R161), the address has no cell (R162, R163). -/
def StepError.Genuine (size : Nat) : StepError → Prop
  | .unimplementedOpcode op => decode op = .error (.unimplemented op)
  | .memoryOutOfRange _ addr => size ≤ addr.toNat

/-- The invariant: memory keeps its canonical form and its bound, STATUS agrees with `step_result`, and a recorded
error is genuine. -/
def State.Inv (s : State) : Prop :=
  s.mem.wf ∧ s.status = statusAfter s.stepResult ∧
    ∀ e, s.stepResult = some (.failed e) → e.Genuine s.mem.size

/-- The next `k` steps all complete with outcome Ok. -/
def RunSafe : Nat → State → Prop
  | 0, _ => True
  | k + 1, s => ∃ t, step s = .next t ∧ t.stepResult = some .ok ∧ RunSafe k t

end Sys2Proof.Machine
end

