-- ==== Sys2Proof/Certificates/Slice0/Obligations.lean ====
section
/-! DEFINITION. The statements for the provers. What a statement compares the machine with is written here in plain
arithmetic on natural numbers (`Claims`), not with the machine's own adder, flag logic or address forming. -/

namespace Sys2Proof.Claims

open Sys2Proof.Machine

/-- The number of 1 bits among the low eight of `n` is even. -/
def evenOnes (n : Nat) : Bool :=
  (List.range 8).countP (fun k => n.testBit k) % 2 == 0

/-- The five flags of a sum (spec/40_alu_flags.md R84 to R88), over natural numbers. -/
def flagsOf (sum : Nat) : Flags where
  z := decide (sum % 256 = 0)
  s := decide (128 ≤ sum % 256)
  p := evenOnes sum
  cy := decide (255 < sum)
  ac := false

/-- `H ++ L` as a number: 256 times H plus L. -/
def hlNat (s : State) : Nat :=
  256 * s.regs.h.toNat + s.regs.l.toNat

/-- A flag as a number. -/
def bit (b : Bool) : Nat :=
  if b then 1 else 0

/-- The whole state after a completed addition of `b` and `c` to A: every field not named here is as before. -/
def arithNext (s : State) (b : Byte) (c : Nat) : State :=
  { s with
    regs := { s.regs with a := BitVec.ofNat 8 (s.regs.a.toNat + b.toNat + c) }
    flags := flagsOf (s.regs.a.toNat + b.toNat + c)
    pc := BitVec.ofNat 16 (s.pc.toNat + 1)
    status := .ready
    stepResult := some .ok }

/-- The whole state after a failed step: only the two outputs differ. -/
def errorNext (s : State) (e : StepError) : State :=
  { s with
    status := .haltedOnError
    stepResult := some (.failed e) }

/-- Everything a step that fails leaves alone: all of the state but the two outputs. -/
def SameButOutputs (s t : State) : Prop :=
  t.regs = s.regs ∧ t.sp = s.sp ∧ t.pc = s.pc ∧ t.flags = s.flags ∧ t.inte = s.inte ∧ t.mem = s.mem

/-- `b` is the operand of the selector: the register named, or the existing cell at `256 H + L`. -/
def Reads (s : State) : Selector → Byte → Prop
  | .reg .a, b => b = s.regs.a
  | .reg .b, b => b = s.regs.b
  | .reg .c, b => b = s.regs.c
  | .reg .d, b => b = s.regs.d
  | .reg .e, b => b = s.regs.e
  | .reg .h, b => b = s.regs.h
  | .reg .l, b => b = s.regs.l
  | .m, b => hlNat s < s.mem.size ∧ b = s.mem.cell (hlNat s)

/-- The sixteen additions: opcode, instruction, selector, and whether the carry is added (spec/30_encoding.md R64). -/
def arithRows : List (Byte × Instr × Selector × Bool) :=
  [(0x80#8, .addB, .reg .b, false), (0x81#8, .addC, .reg .c, false), (0x82#8, .addD, .reg .d, false),
    (0x83#8, .addE, .reg .e, false), (0x84#8, .addH, .reg .h, false), (0x85#8, .addL, .reg .l, false),
    (0x86#8, .addM, .m, false), (0x87#8, .addA, .reg .a, false),
    (0x88#8, .adcB, .reg .b, true), (0x89#8, .adcC, .reg .c, true), (0x8A#8, .adcD, .reg .d, true),
    (0x8B#8, .adcE, .reg .e, true), (0x8C#8, .adcH, .reg .h, true), (0x8D#8, .adcL, .reg .l, true),
    (0x8E#8, .adcM, .m, true), (0x8F#8, .adcA, .reg .a, true)]

/-- The opcode values of the 239 bytes that are no instruction (spec/30_encoding.md R66). -/
def Unimplemented (op : Byte) : Prop :=
  (1 ≤ op.toNat ∧ op.toNat ≤ 0x7F) ∨ 0x90 ≤ op.toNat

/-- What one event leaves in the cell at `a` that held `old`: the image's byte, the byte the host wrote there, or
what it held. -/
def cellAfter (a : Nat) (old : Byte) : HostEvent → Byte
  | .construct image => image.getD a 0#8
  | .stepReq => old
  | .writeReg _ _ => old
  | .writeSp _ => old
  | .writePc _ => old
  | .writeFlag _ _ => old
  | .writeInte _ => old
  | .writeMem b v => if b.toNat = a then v else old

/-- The event is neither a construction nor a host write to memory. -/
def KeepsMemory : HostEvent → Prop
  | .construct _ => False
  | .stepReq => True
  | .writeReg _ _ => True
  | .writeSp _ => True
  | .writePc _ => True
  | .writeFlag _ _ => True
  | .writeInte _ => True
  | .writeMem _ _ => False

end Sys2Proof.Claims

open Sys2Proof Sys2Proof.Machine

/-! ## Encoding -/

/-- Words of the opcode table, one or more of each family, decode to the instruction they stand for. The values other
than 0x80 are the spec's decision D2 (log entry 2). -/
def Obligations.TableWordsDecode : Prop :=
  decode 0b00000000#8 = .ok .nop ∧ decode 0b10000000#8 = .ok .addB ∧ decode 0b10000110#8 = .ok .addM ∧
    decode 0b10000111#8 = .ok .addA ∧ decode 0b10001000#8 = .ok .adcB ∧ decode 0b10001101#8 = .ok .adcL ∧
    decode 0b10001110#8 = .ok .adcM

/-- Decoder and encoder agree in both directions on every byte and every instruction, and the decoder refuses exactly
the bytes 0x01 to 0x7F and 0x90 to 0xFF, by name. The opcode values are the spec's decision D2 (log entry 2). -/
def Obligations.DecodeEncodeAgree : Prop :=
  ∀ op : Byte, (∀ i : Instr, decode op = .ok i ↔ encode i = op) ∧
    (∀ e : DecodeError, decode op = .error e ↔ e = .unimplemented op ∧ Claims.Unimplemented op) ∧
    ((∀ i : Instr, encode i ≠ op) ↔ Claims.Unimplemented op)

/-- The assembler syntax: a line reads as an instruction whatever white space stands before it, after it and, at least
once, between its mnemonic and its operand; and the printed line reads back. Of this the rule R69 gives the mnemonics
(NOP from general knowledge), the operand names, and white space between mnemonic and operand. That white space may also
stand before and after the instruction, and which characters are white space, are the model's own choice (log entry 22). -/
def Obligations.AssemblerTextReadsBack : Prop :=
  (∀ pre mid post : List Char, (∀ c ∈ pre ++ mid ++ post, c = ' ' ∨ c = '\t') → mid ≠ [] →
    parseAsm (pre ++ ['N', 'O', 'P'] ++ post) = some .nop ∧
      ∀ row ∈ [('B', Instr.addB, Instr.adcB), ('C', .addC, .adcC), ('D', .addD, .adcD), ('E', .addE, .adcE),
          ('H', .addH, .adcH), ('L', .addL, .adcL), ('M', .addM, .adcM), ('A', .addA, .adcA)],
        parseAsm (pre ++ ['A', 'D', 'D'] ++ mid ++ [row.1] ++ post) = some row.2.1 ∧
          parseAsm (pre ++ ['A', 'D', 'C'] ++ mid ++ [row.1] ++ post) = some row.2.2) ∧
    ∀ i : Instr, parseAsm (printAsm i) = some i

/-! ## The arithmetic unit -/

/-- R81, R84, R87 to R90: the 9-bit sum is the exact sum; the result is its low byte; the five flags are those of the
sum over natural numbers. (That Sign is bit 7 and Carry a sum above 0xFF is what R90 states; the spec's D18 and D19
record that the open questions of the source do not change it.) -/
def Obligations.AluMatchesExactArithmetic : Prop :=
  ∀ (a b : Byte) (cin : Bool),
    (intermediate a b cin).toNat = a.toNat + b.toNat + Claims.bit cin ∧
      alu a b cin =
        (BitVec.ofNat 8 ((a.toNat + b.toNat + Claims.bit cin) % 256), Claims.flagsOf (a.toNat + b.toNat + Claims.bit cin))

/-- R80: the operand of a register selector is the register, which never faults; the operand of M is the byte at
`256 H + L` where that cell exists, and the operand error with that address where it does not. -/
def Obligations.OperandSelection : Prop :=
  ∀ s : State,
    (∀ r : Reg8, ∃ b, Claims.Reads s (.reg r) b ∧ s.operand (.reg r) = .ok b) ∧
      s.hl.toNat = Claims.hlNat s ∧
      (Claims.hlNat s < s.mem.size → s.operand .m = .ok (s.mem.cell (Claims.hlNat s))) ∧
      (s.mem.size ≤ Claims.hlNat s → s.operand .m = .error (.memoryOutOfRange .operand (BitVec.ofNat 16 (Claims.hlNat s))))

/-- R82: ADD adds no carry and does not depend on the flags it finds; ADC adds the Carry flag as it was at the start of
the step. -/
def Obligations.CarryInRule : Prop :=
  ∀ row ∈ Claims.arithRows, ∀ (s : State) (b : Byte), Claims.Reads s row.2.2.1 b →
    ∃ t, exec row.2.1 s = .next t ∧
      t.regs.a.toNat =
        (s.regs.a.toNat + b.toNat + (if row.2.2.2 then Claims.bit s.flags.cy else 0)) % 256 ∧
      (row.2.2.2 = false → ∀ f : Flags, exec row.2.1 { s with flags := f } = .next t)

/-- R92: where A is both operand and destination the old A is added twice, and the forms that read H or L as data leave
H, L and the M address alone. -/
def Obligations.SourceMayBeDestination : Prop :=
  ∀ s : State,
    (∃ t, exec .addA s = .next t ∧ t.regs.a.toNat = (2 * s.regs.a.toNat) % 256) ∧
      (∃ t, exec .adcA s = .next t ∧ t.regs.a.toNat = (2 * s.regs.a.toNat + Claims.bit s.flags.cy) % 256) ∧
      (∀ row ∈ [(Instr.addH, s.regs.h, 0), (.addL, s.regs.l, 0), (.adcH, s.regs.h, Claims.bit s.flags.cy),
          (.adcL, s.regs.l, Claims.bit s.flags.cy)],
        ∃ t, exec row.1 s = .next t ∧ t.regs.a.toNat = (s.regs.a.toNat + row.2.1.toNat + row.2.2) % 256 ∧
          t.regs.h = s.regs.h ∧ t.regs.l = s.regs.l ∧ t.hl = s.hl)

/-! ## The instructions -/

/-- ADD of each of the seven registers (spec/41_add.md, the rules R100 to R105 and R107): the opcode of its row decodes
to it, and from every state it completes in exactly this state. It rests on the spec's decisions D2 (opcode values), D4
(PC wraps) and D7 (STATUS): log entries 2, 6 and 10. -/
def Obligations.AddRegisterForms : Prop :=
  ∀ row ∈ [((0x80#8 : Byte), Instr.addB, RegFile.b), (0x81#8, .addC, RegFile.c), (0x82#8, .addD, RegFile.d),
      (0x83#8, .addE, RegFile.e), (0x84#8, .addH, RegFile.h), (0x85#8, .addL, RegFile.l), (0x87#8, .addA, RegFile.a)],
    decode row.1 = .ok row.2.1 ∧
      ∀ s : State, exec row.2.1 s = .next (Claims.arithNext s (row.2.2 s.regs) 0)

/-- ADC of each of the seven registers (spec/42_adc.md, the rules R120 to R125 and R127), with the carry as it was at the
start of the step. It rests on the spec's decisions D2, D4 and D7: log entries 2, 6 and 10. -/
def Obligations.AdcRegisterForms : Prop :=
  ∀ row ∈ [((0x88#8 : Byte), Instr.adcB, RegFile.b), (0x89#8, .adcC, RegFile.c), (0x8A#8, .adcD, RegFile.d),
      (0x8B#8, .adcE, RegFile.e), (0x8C#8, .adcH, RegFile.h), (0x8D#8, .adcL, RegFile.l), (0x8F#8, .adcA, RegFile.a)],
    decode row.1 = .ok row.2.1 ∧
      ∀ s : State, exec row.2.1 s = .next (Claims.arithNext s (row.2.2 s.regs) (Claims.bit s.flags.cy))

/-- ADD M and ADC M (the rules R106, R126, R163): where the cell at `256 H + L` exists they complete with its byte;
where it does not, the operand error is reported with that address and nothing else changes. It rests on the spec's
decisions D2, D4, D6 and D7: log entries 2, 6, 11 and 10. -/
def Obligations.MemoryOperandForms : Prop :=
  decode 0x86#8 = .ok .addM ∧ decode 0x8E#8 = .ok .adcM ∧
    ∀ s : State,
      (Claims.hlNat s < s.mem.size →
        exec .addM s = .next (Claims.arithNext s (s.mem.cell (Claims.hlNat s)) 0) ∧
        exec .adcM s = .next (Claims.arithNext s (s.mem.cell (Claims.hlNat s)) (Claims.bit s.flags.cy))) ∧
      (s.mem.size ≤ Claims.hlNat s → ∀ i ∈ [Instr.addM, .adcM],
        exec i s =
          .next (Claims.errorNext s (.memoryOutOfRange .operand (BitVec.ofNat 16 (Claims.hlNat s)))))

/-- NOP (the rule R140): PC advances by one modulo 2^16 and no register, flag or memory cell changes. It rests on the
spec's decisions D2, D4, D7 and D10: log entries 2, 6, 10 and 14. -/
def Obligations.NopCompletes : Prop :=
  decode 0x00#8 = .ok .nop ∧
    ∀ s : State,
      exec .nop s =
        .next { s with pc := BitVec.ofNat 16 (s.pc.toNat + 1), status := .ready, stepResult := some .ok }

/-- The frame of all 17 instructions: the six registers other than A, SP, INTE, `MEM_SIZE` and every byte of memory are
as before (no form stores); NOP also leaves A and the flags; and a form that reports an error leaves A, the flags and PC
too. That NOP keeps the flags and that an error keeps everything are the spec's D10 and D6 (log entries 14 and 11). -/
def Obligations.InstructionFrame : Prop :=
  ∀ (i : Instr) (s t : State), exec i s = .next t →
    (∀ r : Reg8, r ≠ .a → t.reg r = s.reg r) ∧ t.sp = s.sp ∧ t.inte = s.inte ∧ t.mem.size = s.mem.size ∧
      (∀ a : Nat, t.mem.cell a = s.mem.cell a) ∧
      (i = .nop → t.reg .a = s.reg .a ∧ t.flags = s.flags) ∧
      (t.stepResult ≠ some .ok → t.reg .a = s.reg .a ∧ t.flags = s.flags ∧ t.pc = s.pc)

/-- The whole flag set of an addition (the rules R82 to R88 and R90): `compute_flags` gives AC = 0 for every sum, and an ADD or ADC whose operand can
be read completes with AC clear and with all five flags those of the exact sum. No old flag survives: the next state is
the same from any other flags, but for the Carry that an ADC adds. (That Sign is bit 7 and Carry a sum above 0xFF is
what R85 and R86 state under the spec's decisions D18 and D19: log entry 15.) -/
def Obligations.ArithmeticReplacesAllFlags : Prop :=
  (∀ n : BitVec 9, (computeFlags n).ac = false) ∧
    ∀ row ∈ Claims.arithRows, ∀ (s : State) (b : Byte), Claims.Reads s row.2.2.1 b →
      ∃ t, exec row.2.1 s = .next t ∧ t.flags.ac = false ∧
        t.flags =
          Claims.flagsOf
            (s.regs.a.toNat + b.toNat + (if row.2.2.2 then Claims.bit s.flags.cy else 0)) ∧
        ∀ f : Flags, (row.2.2.2 = true → f.cy = s.flags.cy) → exec row.2.1 { s with flags := f } = .next t

/-! ## The step -/

/-- The step cycle (the rule R141): a step at an address with no cell ends with the fetch error; at a cell whose byte is unimplemented it ends with
that opcode reported; neither advances PC or changes anything but the outputs; at a cell whose byte decodes to an
instruction it is exactly that instruction's execution, which advances PC by one where it ends Ok. At PC 0xFFFF that
advance is the wrap to 0x0000, which is the spec's decision D4 (the rules R26 and R144; log entry 6). -/
def Obligations.StepRunsDecodedInstruction : Prop :=
  ∀ s : State,
    (s.mem.size ≤ s.pc.toNat →
      ∃ t, step s = .next t ∧ t.stepResult = some (.failed (.memoryOutOfRange .fetch s.pc)) ∧
        Claims.SameButOutputs s t) ∧
    (s.pc.toNat < s.mem.size →
      decode (s.mem.cell s.pc.toNat) = .error (.unimplemented (s.mem.cell s.pc.toNat)) →
      ∃ t, step s = .next t ∧
        t.stepResult = some (.failed (.unimplementedOpcode (s.mem.cell s.pc.toNat))) ∧ Claims.SameButOutputs s t) ∧
    (s.pc.toNat < s.mem.size → ∀ i : Instr, decode (s.mem.cell s.pc.toNat) = .ok i →
      step s = exec i s ∧ ∃ t, exec i s = .next t ∧ (t.stepResult = some .ok → t.pc = s.pc + 1#16))

/-- R143, R161: a step that fetches an unimplemented opcode reports that byte, and every register, every flag, INTE, SP,
memory and PC keep their values. -/
def Obligations.UnimplementedOpcodeStep : Prop :=
  ∀ (s : State) (op : Byte), s.pc.toNat < s.mem.size → s.mem.cell s.pc.toNat = op →
    decode op = .error (.unimplemented op) →
      ∃ t, step s = .next t ∧ t.stepResult = some (.failed (.unimplementedOpcode op)) ∧ hostReadOpcode t = .next op ∧
        Claims.SameButOutputs s t

/-- R27: a step with PC at or above `MEM_SIZE` reports the fetch error with that PC and changes nothing. -/
def Obligations.FetchPastEndStep : Prop :=
  ∀ s : State, s.mem.size ≤ s.pc.toNat →
    ∃ t, step s = .next t ∧ t.stepResult = some (.failed (.memoryOutOfRange .fetch s.pc)) ∧
      Claims.SameButOutputs s t

/-- R166: the only effects of a failed step are the outputs `step_result` and STATUS; the rest of the state is exactly
the state before it. -/
def Obligations.ErrorEntryIsPrecise : Prop :=
  ∀ (s t : State) (e : StepError), step s = .next t → t.stepResult = some (.failed e) →
    t = { s with status := t.status, stepResult := t.stepResult }

/-- Every step ends in exactly one of the four outcomes, with the cause, the code and the payload of each: the order of
the checks is the fetch, the decode, the operand (the rules R160 to R165, which are the spec's decisions D6 to D9: log
entries 10 to 13). Which bytes are unimplemented, and that 0x86 and 0x8E are the two M forms, are the opcode values of
decision D2, general knowledge and not the source's (log entry 2, PRESUMED). -/
def Obligations.StepOutcomes : Prop :=
  ∀ s : State, ∃ t, step s = .next t ∧
    (s.mem.size ≤ s.pc.toNat → hostReadCode t = .next 2#2 ∧ hostReadAddr t = .next s.pc ∧ t.status = .haltedOnError) ∧
    (s.pc.toNat < s.mem.size → Claims.Unimplemented (s.mem.cell s.pc.toNat) →
      hostReadCode t = .next 1#2 ∧ hostReadOpcode t = .next (s.mem.cell s.pc.toNat) ∧ t.status = .haltedOnError) ∧
    (s.pc.toNat < s.mem.size → ¬ Claims.Unimplemented (s.mem.cell s.pc.toNat) →
      s.mem.cell s.pc.toNat ∈ [0x86#8, 0x8E#8] → s.mem.size ≤ Claims.hlNat s →
      hostReadCode t = .next 3#2 ∧ hostReadAddr t = .next (BitVec.ofNat 16 (Claims.hlNat s)) ∧
        t.status = .haltedOnError) ∧
    (s.pc.toNat < s.mem.size → ¬ Claims.Unimplemented (s.mem.cell s.pc.toNat) →
      (s.mem.cell s.pc.toNat ∈ [0x86#8, 0x8E#8] → Claims.hlNat s < s.mem.size) →
      hostReadCode t = .next 0#2 ∧ t.status = .ready)

/-- A step that ends Ok advances PC by exactly one modulo 2^16; a step that ends in an error leaves it (the rules R25,
R26, R144; the wrap is the spec's decision D4, log entry 6). -/
def Obligations.PcAdvance : Prop :=
  ∀ s t : State, step s = .next t →
    (t.stepResult = some .ok ∧ t.pc.toNat = (s.pc.toNat + 1) % 65536) ∨
      (∃ e, t.stepResult = some (.failed e)) ∧ t.pc = s.pc

/-- STATUS and `step_result` are outputs only: the step from a state does not depend on them, so `haltedOnError` does not
block it (the rule R32, the spec's decision D7: log entry 10). -/
def Obligations.StatusDoesNotBlock : Prop :=
  ∀ (s : State) (st : Status) (r : Option StepResult), step { s with status := st, stepResult := r } = step s

/-- A failed step repeats itself for any number of further steps while the host writes nothing (the rule R145, the
spec's decision D7: log entry 10). -/
def Obligations.HaltedIsAbsorbing : Prop :=
  ∀ s t : State, step s = .next t → t.status = .haltedOnError →
    ∀ k : Nat, Host.Core.run core k t = .next t

/-- R24, R31: over any number of steps SP and INTE keep their values and nothing depends on them: the run from a state
that differs in them alone ends in a state that differs in them alone. -/
def Obligations.SpAndInteAreInert : Prop :=
  ∀ (k : Nat) (s : State) (sp : Word) (inte : Byte),
    ∃ t : State, Host.Core.run core k s = .next t ∧ t.sp = s.sp ∧ t.inte = s.inte ∧
      Host.Core.run core k ({ s with sp := sp, inte := inte } : State) =
        .next ({ t with sp := sp, inte := inte } : State)

/-! ## Memory -/

/-- R46: no instruction and no step writes memory; only a construction or a host write to memory changes it. -/
def Obligations.CoreNeverWritesMemory : Prop :=
  (∀ (i : Instr) (s t : State), exec i s = .next t → t.mem = s.mem) ∧
    ∀ (ev : HostEvent) (s t : State), Claims.KeepsMemory ev → hostStep ev s = .next t →
      t.mem.size = s.mem.size ∧ ∀ a : Nat, t.mem.cell a = s.mem.cell a

/-- R52: after any sequence of constructions, steps and host writes, every read of a cell that exists returns what the
most recent host write or the construction left in it. (The premise `wf` is the model's canonical form, log entry 5.) -/
def Obligations.ReadsReturnLatestWrite : Prop :=
  ∀ (evs : List HostEvent) (s t : State), s.mem.wf → runEvents evs s = .next t →
    ∀ (a : Word) (k : AccessKind), a.toNat < t.mem.size →
      t.memRead k a = .ok (evs.foldl (Claims.cellAfter a.toNat) (s.mem.cell a.toNat)) ∧
        hostReadMem t a = .next (evs.foldl (Claims.cellAfter a.toNat) (s.mem.cell a.toNat))

/-- A host write to an existing cell changes that cell alone and the next fetch at that address sees it (the rules R36
and R54, the spec's decisions D14 and D15: log entries 16 and 21). Two clauses are the model's own: that such a write
leaves STATUS and `step_result` alone is an inference from R34 (log entry 16, DEDUCED), and that a write at or above
`MEM_SIZE`, which R36 says the host cannot make, is stopped by the name `hostAddressAbsent` is its choice (log entry 20,
DESIGN CHOICE). The premise `wf` is the model's canonical form (log entry 5). -/
def Obligations.HostMemoryWrite : Prop :=
  ∀ (s : State) (a : Word) (v : Byte), s.mem.wf →
    (a.toNat < s.mem.size → ∃ t, hostStep (.writeMem a v) s = .next t ∧ t.mem.cell a.toNat = v ∧
      (∀ j : Nat, j ≠ a.toNat → t.mem.cell j = s.mem.cell j) ∧ t.mem.size = s.mem.size ∧
      t = { s with mem := t.mem } ∧ (s.pc = a → t.fetch = .ok v)) ∧
    (s.mem.size ≤ a.toNat → hostStep (.writeMem a v) s = .fault (.hostAddressAbsent a))

/-- The canonical form is canonical: two memories in it, of one size and with every cell equal, are the same data (the
model's own representation, log entry 5). -/
def Obligations.MemoryFormIsCanonical : Prop :=
  ∀ m n : Memory, m.wf → n.wf → m.size = n.size → (∀ a : Nat, a < m.size → m.cell a = n.cell a) → m = n

/-! ## Construction, reset and the host port -/

/-- R181, R183, R185: after construction the seven registers are zero, the five flags are zero, and memory holds exactly
the image; no cell exists above it. -/
def Obligations.ConstructionGivesZeroesAndImage : Prop :=
  ∀ image : List Byte, image.length ≤ 65536 →
    ∃ s : State, construct image = .next s ∧ (∀ r : Reg8, s.reg r = 0x00#8) ∧
      (∀ f : FlagName, s.flags.get f = false) ∧
      (∀ (a : Word) (k : AccessKind),
        (∀ h : a.toNat < image.length, s.memRead k a = .ok image[a.toNat]) ∧
        (image.length ≤ a.toNat → s.memRead k a = .error (.memoryOutOfRange k a)))

/-- What construction leaves beyond R181, R183 and R185: SP, PC and INTE zero and `MEM_SIZE` the image's length (the
spec's D1 and D5), the dispatcher ready and no step result to read (D7); and an image longer than 65536 bytes is
refused (D1). Log entries 3, 7, 8 and 10. -/
def Obligations.ConstructionOtherState : Prop :=
  ∀ image : List Byte,
    (image.length ≤ 65536 → ∃ s : State, construct image = .next s ∧ s.sp = 0x0000#16 ∧ s.pc = 0x0000#16 ∧
      s.inte = 0x00#8 ∧ s.mem.size = image.length ∧ s.status = .ready ∧ hostReadCode s = .refused .noStepResult) ∧
    (65536 < image.length → construct image = .refused (.imageTooLong image.length))

/-- Every host write to a register, pointer, flag or INTE changes its target and nothing else: the registers are
independent storage and none is hardwired (the rules R20, R36; the host port is the spec's decision D14, log entry 16).
That STATUS and `step_result` are among what stays is the model's inference from R34, not the spec's words (log entry
16, DEDUCED). -/
def Obligations.HostRegisterWrites : Prop :=
  ∀ s : State,
    (∀ (r : Reg8) (v : Byte), ∃ t, hostStep (.writeReg r v) s = .next t ∧ t.reg r = v ∧
      (∀ q : Reg8, q ≠ r → t.reg q = s.reg q) ∧ t = { s with regs := t.regs }) ∧
    (∀ (f : FlagName) (v : Bool), ∃ t, hostStep (.writeFlag f v) s = .next t ∧ t.flags.get f = v ∧
      (∀ q : FlagName, q ≠ f → t.flags.get q = s.flags.get q) ∧ t = { s with flags := t.flags }) ∧
    (∀ v : Word, hostStep (.writeSp v) s = .next { s with sp := v }) ∧
    (∀ v : Word, hostStep (.writePc v) s = .next { s with pc := v }) ∧
    (∀ v : Byte, hostStep (.writeInte v) s = .next { s with inte := v })

/-- The outputs: the code of each outcome, and which payload each code makes readable (the rule R164, the spec's
decision D8: log entries 9 and 12). -/
def Obligations.StepResultPort : Prop :=
  ∀ (s : State) (op : Byte) (k : AccessKind) (a : Word),
    (s.stepResult = some .ok → hostReadCode s = .next 0#2 ∧ hostReadOpcode s = .refused .payloadNotValid ∧
      hostReadAddr s = .refused .payloadNotValid) ∧
    (s.stepResult = some (.failed (.unimplementedOpcode op)) → hostReadCode s = .next 1#2 ∧
      hostReadOpcode s = .next op ∧ hostReadAddr s = .refused .payloadNotValid) ∧
    (s.stepResult = some (.failed (.memoryOutOfRange k a)) →
      hostReadCode s = .next (if k = .fetch then 2#2 else 3#2) ∧ hostReadAddr s = .next a ∧
        hostReadOpcode s = .refused .payloadNotValid)

/-- The host's packed flag byte is S Z 0 AC 0 P 1 CY from bit 7 down, and unpacking gives the flags back (the spec's
decision D3: log entry 17). -/
def Obligations.FlagByteLayout : Prop :=
  ∀ f : Flags, Flags.unpack f.pack = f ∧
    f.pack.toNat = 128 * Claims.bit f.s + 64 * Claims.bit f.z + 16 * Claims.bit f.ac + 4 * Claims.bit f.p + 2 +
      Claims.bit f.cy

/-! ## Invariants and runs -/

/-- The reset state meets the invariant. Its image (log entry 4) and the canonical form of memory (log entry 5) are the
model's choice; that STATUS is Ready is the spec's decision D7 (log entry 10). -/
def Obligations.ResetMeetsInv : Prop :=
  State.reset.Inv

/-- The invariant holds right after construction with any image that is not refused. The canonical form of memory is the
model's choice (log entry 5); the bound of 65536 cells and the Ready STATUS are the spec's decisions D1 and D7 (log
entries 3 and 10). -/
def Obligations.InvAfterConstruction : Prop :=
  ∀ (image : List Byte) (s : State), construct image = .next s → s.Inv

/-- Every step keeps the invariant: memory keeps its canonical form and bound, STATUS agrees with `step_result`, and a
recorded error is one that can happen. The canonical form is the model's choice (log entry 5), and memory keeps it
because no step writes memory; what STATUS shows is the spec's decision D7 (log entry 10). -/
def Obligations.StepKeepsInv : Prop :=
  ∀ s t : State, s.Inv → step s = .next t → t.Inv

/-- Every sequence of constructions, steps and host writes keeps the invariant. That STATUS still agrees with
`step_result` after a host write rests on log entry 16 (DEDUCED: a host write leaves both alone; the host port is
decision D14). The canonical form is the model's choice (log entry 5); the bound of 65536 cells is decision D1 (log
entry 3) and what STATUS shows is decision D7 (log entry 10). -/
def Obligations.EventsKeepInv : Prop :=
  ∀ (evs : List HostEvent) (s t : State), s.Inv → runEvents evs s = .next t → t.Inv

/-- A safe run of `k` steps is a run, it ends `k` addresses further on modulo 2^16, and only A, the flags, PC and the two
outputs can differ from its start. That a run through 0xFFFF goes on at 0x0000 is the spec's decision D4 (log entry
6). -/
def Obligations.SafeRunAdvances : Prop :=
  ∀ (k : Nat) (s : State), RunSafe k s →
    ∃ t : State, Host.Core.run core k s = .next t ∧ t.pc.toNat = (s.pc.toNat + k) % 65536 ∧
      (∀ r : Reg8, r ≠ .a → t.reg r = s.reg r) ∧ t.sp = s.sp ∧ t.inte = s.inte ∧ t.mem = s.mem

/-- Progress: where the next `k` cells exist and hold recognised opcodes and the cell at H:L exists, the next `k` steps
all end Ok: nothing they do can make a later one fail. Which bytes are recognised opcodes is decision D2, general
knowledge and not the source's (log entry 2, PRESUMED). -/
def Obligations.RecognisedCodeRuns : Prop :=
  ∀ (k : Nat) (s : State), s.Inv → s.pc.toNat + k ≤ s.mem.size →
    (∀ j : Nat, j < k → ¬ Claims.Unimplemented (s.mem.cell (s.pc.toNat + j))) → Claims.hlNat s < s.mem.size →
      RunSafe k s
end

