-- ==== Sys2Proof/Laws/Alu.lean ====
section
/-! SUPPORT. The adder never overflows its nine bits, and what its parts are as numbers. -/

namespace Sys2Proof.Machine

/-- R81: the sum fits in nine bits, so the 9-bit sum is the exact one. -/
theorem intermediate_toNat (a b : Byte) (cin : Bool) :
    (intermediate a b cin).toNat = a.toNat + b.toNat + cin.toNat := by
  have ha := a.isLt
  have hb := b.isLt
  cases cin <;> simp [intermediate, BitVec.toNat_add] <;> omega

theorem resultByte_toNat (i : BitVec 9) : (resultByte i).toNat = i.toNat % 256 := by
  simp [resultByte, BitVec.extractLsb'_toNat]

@[simp] theorem computeFlags_z (i : BitVec 9) : (computeFlags i).z = (resultByte i == 0x00#8) := rfl
@[simp] theorem computeFlags_s (i : BitVec 9) : (computeFlags i).s = i.getLsbD 7 := rfl
@[simp] theorem computeFlags_p (i : BitVec 9) : (computeFlags i).p = parityEven (resultByte i) := rfl
@[simp] theorem computeFlags_cy (i : BitVec 9) : (computeFlags i).cy = decide (0xFF < i.toNat) := rfl
@[simp] theorem computeFlags_ac (i : BitVec 9) : (computeFlags i).ac = false := rfl

end Sys2Proof.Machine
end

