-- ==== Sys2Proof/Laws/Memory.lean ====
section
/-! SUPPORT. The memory's laws: what a write does to every cell, and that every memory operation keeps the canonical
form. -/

namespace Sys2Proof.Machine

/-- The canonical form of a bare cell list. -/
def CellsWf (cs : List Host.Cell) : Prop :=
  cs.Pairwise (fun p q => p.1 < q.1) ∧ ∀ c ∈ cs, c.2 ≠ Config.unlistedByte

theorem cellsWf_nil : CellsWf [] :=
  ⟨List.Pairwise.nil, by simp⟩

theorem cellsWf_cons {p : Host.Cell} {rest : List Host.Cell} :
    CellsWf (p :: rest) ↔ (∀ q ∈ rest, p.1 < q.1) ∧ p.2 ≠ Config.unlistedByte ∧ CellsWf rest := by
  simp only [CellsWf, List.pairwise_cons, List.forall_mem_cons]
  tauto

/-- Every entry of a written list is the written cell or an entry of the old list. -/
theorem mem_putCell {cs : List Host.Cell} {k : Nat} {v : Byte} {c : Host.Cell} (h : c ∈ putCell cs k v) :
    c = (k, v) ∨ c ∈ cs := by
  induction cs with
  | nil => simp only [putCell] at h; split at h <;> simp_all
  | cons p rest ih =>
    obtain ⟨a, w⟩ := p
    simp only [putCell] at h
    split_ifs at h <;> simp only [List.mem_cons] at h ⊢
    all_goals tauto

/-- A write keeps the canonical form. -/
theorem putCell_wf {cs : List Host.Cell} (h : CellsWf cs) (k : Nat) (v : Byte) : CellsWf (putCell cs k v) := by
  induction cs with
  | nil =>
    simp only [putCell]
    split
    · exact cellsWf_nil
    · exact cellsWf_cons.2 ⟨by simp, ‹_›, cellsWf_nil⟩
  | cons p rest ih =>
    obtain ⟨a, w⟩ := p
    obtain ⟨hlt, hne, hrest⟩ := cellsWf_cons.1 h
    simp only [putCell]
    split_ifs with h1 h2 h3 h4
    · exact h
    · refine cellsWf_cons.2 ⟨fun q hq => ?_, h2, h⟩
      rcases List.mem_cons.1 hq with rfl | hq
      · exact h1
      · exact Nat.lt_trans h1 (hlt q hq)
    · exact hrest
    · exact cellsWf_cons.2 ⟨fun q hq => h3 ▸ hlt q hq, h4, hrest⟩
    · refine cellsWf_cons.2 ⟨fun q hq => ?_, hne, ih hrest⟩
      rcases mem_putCell hq with rfl | hq
      · exact Nat.lt_of_le_of_ne (Nat.le_of_not_lt h1) (fun e => h3 e.symm)
      · exact hlt q hq

/-- Below every listed address a list holds nothing but the unlisted byte. -/
theorem lookupCell_of_lt {cs : List Host.Cell} {k : Nat} (h : ∀ c ∈ cs, k < c.1) :
    lookupCell cs k = Config.unlistedByte := by
  induction cs with
  | nil => rfl
  | cons p rest ih =>
    have hp := h p (by simp)
    simp only [lookupCell]
    rw [if_neg (by omega)]
    exact ih fun c hc => h c (by simp [hc])

/-- A written cell reads as what was written. -/
theorem lookupCell_putCell_self {cs : List Host.Cell} (h : CellsWf cs) (k : Nat) (v : Byte) :
    lookupCell (putCell cs k v) k = v := by
  induction cs with
  | nil => simp only [putCell]; split <;> simp_all [lookupCell]
  | cons p rest ih =>
    obtain ⟨a, w⟩ := p
    obtain ⟨hlt, -, hrest⟩ := cellsWf_cons.1 h
    simp only [putCell]
    split_ifs with h1 h2 h3 h4
    · rw [h2]
      refine lookupCell_of_lt fun c hc => ?_
      rcases List.mem_cons.1 hc with rfl | hc
      · exact h1
      · exact Nat.lt_trans h1 (hlt c hc)
    · simp [lookupCell]
    · rw [h4, h3]
      exact lookupCell_of_lt hlt
    · simp [lookupCell]
    · simp only [lookupCell, if_neg h3]
      exact ih hrest

/-- A write leaves every other cell alone. -/
theorem lookupCell_putCell_of_ne (cs : List Host.Cell) {k j : Nat} (v : Byte) (h : j ≠ k) :
    lookupCell (putCell cs k v) j = lookupCell cs j := by
  induction cs with
  | nil => simp only [putCell]; split <;> simp [lookupCell, h]
  | cons p rest ih =>
    obtain ⟨a, w⟩ := p
    simp only [putCell]
    split_ifs with h1 h2 h3 h4
    · rfl
    · simp [lookupCell, h]
    · subst h3; simp [lookupCell, h]
    · subst h3; simp [lookupCell, h]
    · simp only [lookupCell, ih]

/-! ## Images -/

theorem mem_imageCells {k : Nat} {image : List Byte} {c : Host.Cell} (h : c ∈ imageCells k image) :
    k ≤ c.1 ∧ c.1 < k + image.length ∧ c.2 ≠ Config.unlistedByte := by
  induction image generalizing k with
  | nil => simp [imageCells] at h
  | cons v vs ih =>
    simp only [imageCells] at h
    simp only [List.length_cons]
    split at h
    · obtain ⟨h1, h2, h3⟩ := ih h
      exact ⟨by omega, by omega, h3⟩
    · rcases List.mem_cons.1 h with rfl | h
      · exact ⟨by simp, by simp, ‹_›⟩
      · obtain ⟨h1, h2, h3⟩ := ih h
        exact ⟨by omega, by omega, h3⟩

theorem imageCells_wf (k : Nat) (image : List Byte) : CellsWf (imageCells k image) := by
  induction image generalizing k with
  | nil => exact cellsWf_nil
  | cons v vs ih =>
    simp only [imageCells]
    split
    · exact ih (k + 1)
    · exact cellsWf_cons.2 ⟨fun q hq => by have := (mem_imageCells hq).1; simp; omega, ‹_›, ih (k + 1)⟩

theorem lookupCell_imageCells (k : Nat) (image : List Byte) (j : Nat) :
    lookupCell (imageCells k image) (k + j) = image.getD j Config.unlistedByte := by
  induction image generalizing k j with
  | nil => simp [imageCells, lookupCell]
  | cons v vs ih =>
    cases j with
    | zero =>
      simp only [imageCells]
      split
      · rw [lookupCell_of_lt fun c hc => by have := (mem_imageCells hc).1; omega]
        simp_all
      · simp [lookupCell]
    | succ j =>
      have hj : lookupCell (imageCells (k + 1) vs) (k + (j + 1)) = vs.getD j Config.unlistedByte := by
        rw [← ih (k + 1) j]; congr 1; omega
      simp only [imageCells]
      split
      · simpa using hj
      · simp only [lookupCell, if_neg (show ¬ k + (j + 1) = k by omega)]
        simpa using hj

/-! ## Memories -/

theorem Memory.wf_iff (m : Memory) :
    m.wf ↔ CellsWf m.cells ∧ (∀ c ∈ m.cells, c.1 < m.size) ∧ m.size ≤ Config.addressSpace := by
  simp only [Memory.wf, CellsWf]
  constructor
  · rintro ⟨h1, h2, h3⟩
    exact ⟨⟨h1, fun c hc => (h2 c hc).2⟩, fun c hc => (h2 c hc).1, h3⟩
  · rintro ⟨⟨h1, h2⟩, h3, h4⟩
    exact ⟨h1, fun c hc => ⟨h3 c hc, h2 c hc⟩, h4⟩

@[simp] theorem Memory.put_size (m : Memory) (a : Nat) (v : Byte) : (m.put a v).size = m.size := rfl
@[simp] theorem Memory.ofImage_size (image : List Byte) : (Memory.ofImage image).size = image.length := rfl

theorem Memory.cell_put_self {m : Memory} (h : m.wf) (a : Nat) (v : Byte) : (m.put a v).cell a = v :=
  lookupCell_putCell_self (m.wf_iff.1 h).1 a v

theorem Memory.cell_put_of_ne (m : Memory) {a j : Nat} (v : Byte) (h : j ≠ a) : (m.put a v).cell j = m.cell j :=
  lookupCell_putCell_of_ne m.cells v h

theorem Memory.put_wf {m : Memory} (h : m.wf) {a : Nat} (ha : a < m.size) (v : Byte) : (m.put a v).wf := by
  rw [Memory.wf_iff] at h ⊢
  refine ⟨putCell_wf h.1 a v, fun c hc => ?_, h.2.2⟩
  rcases mem_putCell hc with rfl | hc
  · exact ha
  · exact h.2.1 c hc

theorem Memory.load_wf {m : Memory} (h : m.wf) {a : Nat} (ha : a < Config.addressSpace) (v : Byte) :
    (m.load a v).wf := by
  rw [Memory.wf_iff] at h ⊢
  simp only [Memory.load]
  refine ⟨putCell_wf h.1 a v, fun c hc => ?_, Nat.max_le.2 ⟨h.2.2, ha⟩⟩
  rcases mem_putCell hc with rfl | hc
  · simp
  · exact Nat.lt_of_lt_of_le (h.2.1 c hc) (Nat.le_max_left _ _)

theorem Memory.cell_load_self {m : Memory} (h : m.wf) (a : Nat) (v : Byte) : (m.load a v).cell a = v :=
  lookupCell_putCell_self (m.wf_iff.1 h).1 a v

theorem Memory.ofImage_wf {image : List Byte} (h : image.length ≤ Config.addressSpace) : (Memory.ofImage image).wf := by
  rw [Memory.wf_iff]
  exact ⟨imageCells_wf 0 image, fun c hc => by simpa [Memory.ofImage] using (mem_imageCells hc).2.1, h⟩

theorem Memory.cell_ofImage (image : List Byte) (a : Nat) :
    (Memory.ofImage image).cell a = image.getD a Config.unlistedByte := by
  simpa [Memory.cell, Memory.ofImage] using lookupCell_imageCells 0 image a

/-- The reset memory has the canonical form. -/
theorem State.reset_mem_wf : State.reset.mem.wf := by
  decide

end Sys2Proof.Machine
end

