-- ==== Sys2Proof/Laws/PerInstr.lean ====
section
/-! SUPPORT. The statements made once per instruction: the host's case split cites one lemma per constructor. -/

namespace Sys2Proof.Laws.FormRoundTrip

/-- The row that an instruction's fields name is the instruction itself (spec/30_encoding.md R64). -/
def Statement (i : Instr) : Prop :=
  Instr.ofForm i.form = i

theorem nop : Statement .nop := rfl
theorem addB : Statement .addB := rfl
theorem addC : Statement .addC := rfl
theorem addD : Statement .addD := rfl
theorem addE : Statement .addE := rfl
theorem addH : Statement .addH := rfl
theorem addL : Statement .addL := rfl
theorem addM : Statement .addM := rfl
theorem addA : Statement .addA := rfl
theorem adcB : Statement .adcB := rfl
theorem adcC : Statement .adcC := rfl
theorem adcD : Statement .adcD := rfl
theorem adcE : Statement .adcE := rfl
theorem adcH : Statement .adcH := rfl
theorem adcL : Statement .adcL := rfl
theorem adcM : Statement .adcM := rfl
theorem adcA : Statement .adcA := rfl

end Sys2Proof.Laws.FormRoundTrip
end

