-- ==== Sys2Proof/Laws/State.lean ====
section
/-! SUPPORT. What each update of the state does to each field, and the register file's laws. -/

namespace Sys2Proof.Machine

/-! ## The register file -/

@[simp] theorem RegFile.get_set_self (f : RegFile) (r : Reg8) (v : Byte) : (f.set r v).get r = v := by
  cases r <;> rfl

theorem RegFile.get_set_of_ne (f : RegFile) {r q : Reg8} (v : Byte) (h : q ≠ r) : (f.set r v).get q = f.get q := by
  cases r <;> cases q <;> first | rfl | exact absurd rfl h

@[simp] theorem RegFile.set_a (f : RegFile) (v : Byte) : f.set .a v = { f with a := v } := rfl

@[simp] theorem State.reg_a (s : State) : s.reg .a = s.regs.a := rfl
@[simp] theorem State.reg_b (s : State) : s.reg .b = s.regs.b := rfl
@[simp] theorem State.reg_c (s : State) : s.reg .c = s.regs.c := rfl
@[simp] theorem State.reg_d (s : State) : s.reg .d = s.regs.d := rfl
@[simp] theorem State.reg_e (s : State) : s.reg .e = s.regs.e := rfl
@[simp] theorem State.reg_h (s : State) : s.reg .h = s.regs.h := rfl
@[simp] theorem State.reg_l (s : State) : s.reg .l = s.regs.l := rfl

/-! ## `setReg` -/

@[simp] theorem State.setReg_regs (s : State) (r : Reg8) (v : Byte) : (s.setReg r v).regs = s.regs.set r v := rfl
@[simp] theorem State.setReg_sp (s : State) (r : Reg8) (v : Byte) : (s.setReg r v).sp = s.sp := rfl
@[simp] theorem State.setReg_pc (s : State) (r : Reg8) (v : Byte) : (s.setReg r v).pc = s.pc := rfl
@[simp] theorem State.setReg_flags (s : State) (r : Reg8) (v : Byte) : (s.setReg r v).flags = s.flags := rfl
@[simp] theorem State.setReg_inte (s : State) (r : Reg8) (v : Byte) : (s.setReg r v).inte = s.inte := rfl
@[simp] theorem State.setReg_mem (s : State) (r : Reg8) (v : Byte) : (s.setReg r v).mem = s.mem := rfl
@[simp] theorem State.setReg_status (s : State) (r : Reg8) (v : Byte) : (s.setReg r v).status = s.status := rfl
@[simp] theorem State.setReg_stepResult (s : State) (r : Reg8) (v : Byte) :
    (s.setReg r v).stepResult = s.stepResult := rfl

/-! ## `setFlags` -/

@[simp] theorem State.setFlags_regs (s : State) (f : Flags) : (s.setFlags f).regs = s.regs := rfl
@[simp] theorem State.setFlags_sp (s : State) (f : Flags) : (s.setFlags f).sp = s.sp := rfl
@[simp] theorem State.setFlags_pc (s : State) (f : Flags) : (s.setFlags f).pc = s.pc := rfl
@[simp] theorem State.setFlags_flags (s : State) (f : Flags) : (s.setFlags f).flags = f := rfl
@[simp] theorem State.setFlags_inte (s : State) (f : Flags) : (s.setFlags f).inte = s.inte := rfl
@[simp] theorem State.setFlags_mem (s : State) (f : Flags) : (s.setFlags f).mem = s.mem := rfl
@[simp] theorem State.setFlags_status (s : State) (f : Flags) : (s.setFlags f).status = s.status := rfl
@[simp] theorem State.setFlags_stepResult (s : State) (f : Flags) : (s.setFlags f).stepResult = s.stepResult := rfl

/-! ## `complete`: the end of a completed step -/

@[simp] theorem State.complete_regs (s : State) : s.complete.regs = s.regs := rfl
@[simp] theorem State.complete_sp (s : State) : s.complete.sp = s.sp := rfl
@[simp] theorem State.complete_pc (s : State) : s.complete.pc = s.pc + 1#16 := rfl
@[simp] theorem State.complete_flags (s : State) : s.complete.flags = s.flags := rfl
@[simp] theorem State.complete_inte (s : State) : s.complete.inte = s.inte := rfl
@[simp] theorem State.complete_mem (s : State) : s.complete.mem = s.mem := rfl
@[simp] theorem State.complete_status (s : State) : s.complete.status = .ready := rfl
@[simp] theorem State.complete_stepResult (s : State) : s.complete.stepResult = some .ok := rfl

/-! ## `raise`: error entry -/

@[simp] theorem State.raise_regs (s : State) (e : StepError) : (s.raise e).regs = s.regs := rfl
@[simp] theorem State.raise_sp (s : State) (e : StepError) : (s.raise e).sp = s.sp := rfl
@[simp] theorem State.raise_pc (s : State) (e : StepError) : (s.raise e).pc = s.pc := rfl
@[simp] theorem State.raise_flags (s : State) (e : StepError) : (s.raise e).flags = s.flags := rfl
@[simp] theorem State.raise_inte (s : State) (e : StepError) : (s.raise e).inte = s.inte := rfl
@[simp] theorem State.raise_mem (s : State) (e : StepError) : (s.raise e).mem = s.mem := rfl
@[simp] theorem State.raise_status (s : State) (e : StepError) : (s.raise e).status = .haltedOnError := rfl
@[simp] theorem State.raise_stepResult (s : State) (e : StepError) : (s.raise e).stepResult = some (.failed e) := rfl

/-- A second error entry leaves nothing of the first. -/
@[simp] theorem State.raise_raise (s : State) (d e : StepError) : (s.raise d).raise e = s.raise e := rfl

/-! ## `constructed` -/

@[simp] theorem State.constructed_mem (m : Memory) : (State.constructed m).mem = m := rfl
@[simp] theorem State.constructed_pc (m : Memory) : (State.constructed m).pc = 0#16 := rfl
@[simp] theorem State.constructed_status (m : Memory) : (State.constructed m).status = .ready := rfl
@[simp] theorem State.constructed_stepResult (m : Memory) : (State.constructed m).stepResult = none := rfl

/-! ## Single flags -/

@[simp] theorem Flags.get_put_self (f : Flags) (n : FlagName) (v : Bool) : (f.put n v).get n = v := by
  cases n <;> rfl

theorem Flags.get_put_of_ne (f : Flags) {n q : FlagName} (v : Bool) (h : q ≠ n) : (f.put n v).get q = f.get q := by
  cases n <;> cases q <;> first | rfl | exact absurd rfl h

end Sys2Proof.Machine
end

