-- ==== Sys2Proof/Laws/Step.lean ====
section
/-! SUPPORT. Once for each shared operation: everything it can do. Later proofs cite these and do not unfold the
machine. -/

namespace Sys2Proof.Machine

theorem State.memRead_of_lt {s : State} {addr : Word} (k : AccessKind) (h : addr.toNat < s.mem.size) :
    s.memRead k addr = .ok (s.mem.cell addr.toNat) :=
  if_pos h

theorem State.memRead_of_le {s : State} {addr : Word} (k : AccessKind) (h : s.mem.size ≤ addr.toNat) :
    s.memRead k addr = .error (.memoryOutOfRange k addr) :=
  if_neg (Nat.not_lt.2 h)

/-- What an operand read answers: a register, or the cell at H:L, or the operand error. -/
theorem State.operand_cases (s : State) (sel : Selector) :
    (∃ r, sel = .reg r ∧ s.operand sel = .ok (s.reg r)) ∨
      (sel = .m ∧ s.hl.toNat < s.mem.size ∧ s.operand sel = .ok (s.mem.cell s.hl.toNat)) ∨
      (sel = .m ∧ s.mem.size ≤ s.hl.toNat ∧ s.operand sel = .error (.memoryOutOfRange .operand s.hl)) := by
  cases sel with
  | reg r => exact .inl ⟨r, rfl, rfl⟩
  | m =>
    rcases Nat.lt_or_ge s.hl.toNat s.mem.size with h | h
    · exact .inr (.inl ⟨rfl, h, State.memRead_of_lt _ h⟩)
    · exact .inr (.inr ⟨rfl, h, State.memRead_of_le _ h⟩)

theorem execArith_of_ok {s : State} {sel : Selector} {b : Byte} (cin : Bool) (h : s.operand sel = .ok b) :
    execArith sel cin s = .next (s.addToA b cin) := by
  simp [execArith, h]

theorem execArith_of_error {s : State} {sel : Selector} {e : StepError} (cin : Bool) (h : s.operand sel = .error e) :
    execArith sel cin s = .next (s.raise e) := by
  simp [execArith, h]

/-- Every arm of the dispatcher by its form: NOP completes, the other sixteen are the one addition. -/
theorem exec_eq_form (i : Instr) (s : State) :
    exec i s = match i.form with
      | .nop => .next s.complete
      | .add sel => execArith sel false s
      | .adc sel => execArith sel s.flags.cy s := by
  cases i <;> rfl

/-- What an instruction does: it completes with or without an addition to A, or it enters the operand error. -/
theorem exec_cases (i : Instr) (s : State) :
    (i = .nop ∧ exec i s = .next s.complete) ∨
      (∃ b cin, i ≠ .nop ∧ exec i s = .next (s.addToA b cin)) ∨
      (∃ addr, i.form ∈ [Form.add .m, Form.adc .m] ∧ addr = s.hl ∧ s.mem.size ≤ s.hl.toNat ∧
        exec i s = .next (s.raise (.memoryOutOfRange .operand addr))) := by
  have arith (sel : Selector) (cin : Bool) :
      (∃ b, execArith sel cin s = .next (s.addToA b cin)) ∨
        (sel = .m ∧ s.mem.size ≤ s.hl.toNat ∧
          execArith sel cin s = .next (s.raise (.memoryOutOfRange .operand s.hl))) := by
    rcases s.operand_cases sel with ⟨r, -, h⟩ | ⟨-, -, h⟩ | ⟨hm, hle, h⟩
    · exact .inl ⟨_, execArith_of_ok cin h⟩
    · exact .inl ⟨_, execArith_of_ok cin h⟩
    · exact .inr ⟨hm, hle, execArith_of_error cin h⟩
  rw [exec_eq_form]
  cases hf : i.form with
  | nop => exact .inl ⟨by cases i <;> simp_all [Instr.form], rfl⟩
  | add sel =>
    rcases arith sel false with ⟨b, h⟩ | ⟨rfl, hle, h⟩
    · exact .inr (.inl ⟨b, _, by rintro rfl; simp [Instr.form] at hf, h⟩)
    · exact .inr (.inr ⟨_, by simp, rfl, hle, h⟩)
  | adc sel =>
    rcases arith sel s.flags.cy with ⟨b, h⟩ | ⟨rfl, hle, h⟩
    · exact .inr (.inl ⟨b, _, by rintro rfl; simp [Instr.form] at hf, h⟩)
    · exact .inr (.inr ⟨_, by simp, rfl, hle, h⟩)

/-- A decoder error reports the byte it was given (R161). -/
theorem decode_error_byte {op : Byte} {e : DecodeError} (h : decode op = .error e) : e = .unimplemented op := by
  unfold decode at h
  split at h
  · cases h
  · injection h with h; exact h.symm

/-- The step at an address with no cell. -/
theorem step_fetch_error {s : State} (h : s.mem.size ≤ s.pc.toNat) :
    step s = .next (s.raise (.memoryOutOfRange .fetch s.pc)) := by
  simp [step, State.fetch, State.memRead_of_le _ h]

/-- The step at a cell that holds no recognised opcode. -/
theorem step_decode_error {s : State} {e : DecodeError} (h : s.pc.toNat < s.mem.size)
    (hd : decode (s.mem.cell s.pc.toNat) = .error e) :
    step s = .next (s.raise (.unimplementedOpcode (s.mem.cell s.pc.toNat))) := by
  simp [step, State.fetch, State.memRead_of_lt _ h, hd, decode_error_byte hd]

/-- The step at a cell that holds a recognised opcode. -/
theorem step_decode_ok {s : State} {i : Instr} (h : s.pc.toNat < s.mem.size)
    (hd : decode (s.mem.cell s.pc.toNat) = .ok i) : step s = exec i s := by
  simp [step, State.fetch, State.memRead_of_lt _ h, hd]

/-- Everything a step can do: it enters a genuine error, or it completes a NOP or an addition. -/
theorem step_cases (s : State) :
    (∃ e, e.Genuine s.mem.size ∧ step s = .next (s.raise e)) ∨
      step s = .next s.complete ∨ ∃ b cin, step s = .next (s.addToA b cin) := by
  rcases Nat.lt_or_ge s.pc.toNat s.mem.size with h | h
  · cases hd : decode (s.mem.cell s.pc.toNat) with
    | error e =>
      refine .inl ⟨_, ?_, step_decode_error h hd⟩
      rw [decode_error_byte hd] at hd
      exact hd
    | ok i =>
      rw [step_decode_ok h hd]
      rcases exec_cases i s with ⟨-, hx⟩ | ⟨b, cin, -, hx⟩ | ⟨addr, -, rfl, hle, hx⟩
      · exact .inr (.inl hx)
      · exact .inr (.inr ⟨b, cin, hx⟩)
      · exact .inl ⟨.memoryOutOfRange .operand s.hl, hle, hx⟩
  · exact .inl ⟨.memoryOutOfRange .fetch s.pc, h, step_fetch_error h⟩

/-! ## `addToA` -/

@[simp] theorem State.addToA_regs (s : State) (b : Byte) (cin : Bool) :
    (s.addToA b cin).regs = s.regs.set .a (alu (s.reg .a) b cin).1 := rfl
@[simp] theorem State.addToA_sp (s : State) (b : Byte) (cin : Bool) : (s.addToA b cin).sp = s.sp := rfl
@[simp] theorem State.addToA_pc (s : State) (b : Byte) (cin : Bool) : (s.addToA b cin).pc = s.pc + 1#16 := rfl
@[simp] theorem State.addToA_flags (s : State) (b : Byte) (cin : Bool) :
    (s.addToA b cin).flags = (alu (s.reg .a) b cin).2 := rfl
@[simp] theorem State.addToA_inte (s : State) (b : Byte) (cin : Bool) : (s.addToA b cin).inte = s.inte := rfl
@[simp] theorem State.addToA_mem (s : State) (b : Byte) (cin : Bool) : (s.addToA b cin).mem = s.mem := rfl
@[simp] theorem State.addToA_status (s : State) (b : Byte) (cin : Bool) : (s.addToA b cin).status = .ready := rfl
@[simp] theorem State.addToA_stepResult (s : State) (b : Byte) (cin : Bool) :
    (s.addToA b cin).stepResult = some .ok := rfl

/-- A program byte placed for the next step is what that step fetches. -/
theorem State.fetch_withFetchWord {s : State} (h : s.mem.wf) (nbits w : Nat) :
    (s.withFetchWord nbits w).fetch = .ok (tableByte nbits w) := by
  have hlt : s.pc.toNat < (s.withFetchWord nbits w).mem.size := by
    simp only [State.withFetchWord, Memory.load]; omega
  have hc : (s.withFetchWord nbits w).mem.cell s.pc.toNat = tableByte nbits w :=
    Memory.cell_load_self h _ _
  rw [State.fetch, show (s.withFetchWord nbits w).pc = s.pc from rfl, State.memRead_of_lt _ hlt, hc]

end Sys2Proof.Machine
end

