-- ==== Sys2Proof/Tests/Slice0.lean ====
section
/-! SUPPORT. The model's own tests: every expected value is taken from the spec (the examples of the rules, or the
vectors of spec/95_test_vectors.md, named at each test), and one witness for the hypotheses of each statement. -/

namespace Sys2Proof.Tests

open Sys2Proof.Machine

/-! ## Well-formedness -/

/-- V-RESET-02: an image of 65537 bytes is refused, one of 65536 is not. -/
theorem test_image_too_long_refused : imageWellFormed (List.replicate 65537 0#8) = false := by
  rw [imageWellFormed, List.length_replicate]; decide

theorem test_image_of_full_size_accepted : imageWellFormed (List.replicate 65536 0#8) = true := by
  rw [imageWellFormed, List.length_replicate]; decide

/-- No instruction has a field that could be out of range (R68). -/
theorem test_every_instr_well_formed (i : Instr) : i.wellFormed = true := by
  cases i <;> rfl

/-! ## Decoding: the words of R64, bit by bit -/

theorem test_decode_nop : decode 0b00000000#8 = .ok .nop := by decide

theorem test_decode_add :
    [0b10000000#8, 0b10000001#8, 0b10000010#8, 0b10000011#8, 0b10000100#8, 0b10000101#8, 0b10000110#8,
        0b10000111#8].map decode =
      [.ok .addB, .ok .addC, .ok .addD, .ok .addE, .ok .addH, .ok .addL, .ok .addM, .ok .addA] := by decide

theorem test_decode_adc :
    [0b10001000#8, 0b10001001#8, 0b10001010#8, 0b10001011#8, 0b10001100#8, 0b10001101#8, 0b10001110#8,
        0b10001111#8].map decode =
      [.ok .adcB, .ok .adcC, .ok .adcD, .ok .adcE, .ok .adcH, .ok .adcL, .ok .adcM, .ok .adcA] := by decide

/-- V-UNIMPL-01 to V-UNIMPL-08: the neighbours of the recognised words are refused by name. -/
theorem test_decode_unimplemented :
    [0x76#8, 0x7F#8, 0x90#8, 0x01#8, 0xFF#8, 0x08#8, 0xC6#8, 0x98#8].map decode =
      [0x76#8, 0x7F#8, 0x90#8, 0x01#8, 0xFF#8, 0x08#8, 0xC6#8, 0x98#8].map
        (fun op => .error (.unimplemented op)) := by decide

theorem test_table_word : decodeTableWord 8 0x8E = some .adcM ∧ decodeTableWord 8 0x76 = none := by decide

/-! ## Assembler text (R69) -/

theorem test_parse_asm :
    parseAsm ['A', 'D', 'D', ' ', 'M'] = some .addM ∧ parseAsm [' ', 'A', 'D', 'C', '\t', ' ', 'A'] = some .adcA ∧
      parseAsm ['N', 'O', 'P'] = some .nop ∧ parseAsm ['A', 'D', 'D'] = none ∧
      parseAsm ['A', 'D', 'D', 'B'] = none ∧ parseAsm ['a', 'd', 'd', ' ', 'b'] = none := by decide

theorem test_print_asm : printAsm .adcL = ['A', 'D', 'C', ' ', 'L'] := by decide

/-! ## The flag logic -/

/-- W4: the source's two parity values. -/
theorem test_parity : parityEven 0b00000011#8 = true ∧ parityEven 0b00000001#8 = false := by decide

/-- D3: S Z 0 AC 0 P 1 CY. -/
theorem test_flag_byte : Flags.pack { z := true, s := false, p := true, cy := false, ac := false } = 0b01000110#8 := by
  decide

/-! ## One step -/

/-- The state of a step's outcome. -/
def stateOf : Host.Outcome State Fault Refusal → Option State
  | .next t => some t
  | .fault _ => none
  | .refused _ => none

/-- A machine with the given registers, Carry and memory, PC at 0. -/
def machine (mem : Memory) (regs : RegFile) (cy : Bool) : State :=
  { State.constructed mem with
    regs := regs
    flags := { z := false, s := false, p := false, cy := cy, ac := false } }

/-- A flag set in the spec's order Z S P CY AC. -/
def zspca (z s p cy ac : Bool) : Flags :=
  { z := z, s := s, p := p, cy := cy, ac := ac }

/-- What a test compares: A, the flags, PC and the outcome. -/
def view (t : State) : Byte × Flags × Word × Option StepResult :=
  (t.regs.a, t.flags, t.pc, t.stepResult)

/-- The start of the spec's selector check: each register and the M cell hold a bit of their own. -/
def selStart (op : Byte) (cy : Bool) : State :=
  machine { size := 0x2100, cells := [(0, op), (0x1020, 0x40#8)] }
    { a := 0x00#8, b := 0x01#8, c := 0x02#8, d := 0x04#8, e := 0x08#8, h := 0x10#8, l := 0x20#8 } cy

/-- A machine whose memory is one opcode, with A and every other register at the same value but H and L. -/
def oneOp (op a other h l : Byte) (cy : Bool) : State :=
  machine { size := 1, cells := [(0, op)] } { a := a, b := other, c := other, d := other, e := other, h := h, l := l } cy

/-! V-SEL-01 to V-SEL-08: each ADD picks out exactly one operand. -/

theorem test_add_B_selects :
    (stateOf (step (selStart 0x80#8 false))).map view = some (0x01#8, (zspca false false false false false), 0x0001#16, some .ok) := by decide

theorem test_add_C_selects :
    (stateOf (step (selStart 0x81#8 false))).map view = some (0x02#8, (zspca false false false false false), 0x0001#16, some .ok) := by decide

theorem test_add_D_selects :
    (stateOf (step (selStart 0x82#8 false))).map view = some (0x04#8, (zspca false false false false false), 0x0001#16, some .ok) := by decide

theorem test_add_E_selects :
    (stateOf (step (selStart 0x83#8 false))).map view = some (0x08#8, (zspca false false false false false), 0x0001#16, some .ok) := by decide

theorem test_add_H_selects :
    (stateOf (step (selStart 0x84#8 false))).map view = some (0x10#8, (zspca false false false false false), 0x0001#16, some .ok) := by decide

theorem test_add_L_selects :
    (stateOf (step (selStart 0x85#8 false))).map view = some (0x20#8, (zspca false false false false false), 0x0001#16, some .ok) := by decide

theorem test_add_M_selects :
    (stateOf (step (selStart 0x86#8 false))).map view = some (0x40#8, (zspca false false false false false), 0x0001#16, some .ok) := by decide

theorem test_add_A_selects :
    (stateOf (step (selStart 0x87#8 false))).map view = some (0x00#8, (zspca true false true false false), 0x0001#16, some .ok) := by decide

/-! V-SEL-09, V-SEL-10 and the sentence before them: with Carry in, every ADC result is one more. -/

theorem test_adc_B_selects :
    (stateOf (step (selStart 0x88#8 true))).map view = some (0x02#8, (zspca false false false false false), 0x0001#16, some .ok) := by decide

theorem test_adc_C_selects :
    (stateOf (step (selStart 0x89#8 true))).map view = some (0x03#8, (zspca false false true false false), 0x0001#16, some .ok) := by decide

theorem test_adc_D_selects :
    (stateOf (step (selStart 0x8A#8 true))).map view = some (0x05#8, (zspca false false true false false), 0x0001#16, some .ok) := by decide

theorem test_adc_E_selects :
    (stateOf (step (selStart 0x8B#8 true))).map view = some (0x09#8, (zspca false false true false false), 0x0001#16, some .ok) := by decide

theorem test_adc_H_selects :
    (stateOf (step (selStart 0x8C#8 true))).map view = some (0x11#8, (zspca false false true false false), 0x0001#16, some .ok) := by decide

theorem test_adc_L_selects :
    (stateOf (step (selStart 0x8D#8 true))).map view = some (0x21#8, (zspca false false true false false), 0x0001#16, some .ok) := by decide

theorem test_adc_M_selects :
    (stateOf (step (selStart 0x8E#8 true))).map view = some (0x41#8, (zspca false false true false false), 0x0001#16, some .ok) := by decide

theorem test_adc_A_selects :
    (stateOf (step (selStart 0x8F#8 true))).map view = some (0x01#8, (zspca false false false false false), 0x0001#16, some .ok) := by decide

/-! The examples of the rules R100 to R107 and R120 to R127. -/

/-- R100, W7: 0x15 has three set bits, so P = 0 (C6). -/
theorem test_add_B_example :
    (stateOf (step (oneOp 0x80#8 0x14#8 0x01#8 0 0 false))).map view = some (0x15#8, (zspca false false false false false), 0x0001#16, some .ok) := by decide

/-- R101: a sum of exactly 0x100. -/
theorem test_add_C_example :
    (stateOf (step (oneOp 0x81#8 0xFF#8 0x01#8 0 0 false))).map view = some (0x00#8, (zspca true false true true false), 0x0001#16, some .ok) := by decide

/-- R102: a sum of 0xFF does not carry (C2). -/
theorem test_add_D_example :
    (stateOf (step (oneOp 0x82#8 0xFF#8 0x00#8 0 0 false))).map view = some (0xFF#8, (zspca false true true false false), 0x0001#16, some .ok) := by decide

/-- R103. -/
theorem test_add_E_example :
    (stateOf (step (oneOp 0x83#8 0x7F#8 0x01#8 0 0 false))).map view = some (0x80#8, (zspca false true false false false), 0x0001#16, some .ok) := by decide

/-- R104: a carry out of bit 3 leaves AC clear (C5). -/
theorem test_add_H_example :
    (stateOf (step (oneOp 0x84#8 0x08#8 0xFF#8 0x08#8 0 false))).map view = some (0x10#8, (zspca false false false false false), 0x0001#16, some .ok) := by decide

/-- R105: Sign is bit 7, not bit 3 (C1). -/
theorem test_add_L_example :
    (stateOf (step (oneOp 0x85#8 0x04#8 0xFF#8 0 0x04#8 false))).map view = some (0x08#8, (zspca false false false false false), 0x0001#16, some .ok) := by decide

/-- R106, V-M-01: H:L is a concatenation, not an AND (C3). -/
theorem test_add_M_example :
    (stateOf (step (machine { size := 65536, cells := [(0, 0x86#8), (0x0010, 0x77#8), (0x1234, 0x05#8)] } { a := 0x10#8, b := 0, c := 0, d := 0, e := 0, h := 0x12#8, l := 0x34#8 } false))).map view = some (0x15#8, (zspca false false false false false), 0x0001#16, some .ok) := by decide

/-- R107. -/
theorem test_add_A_example :
    (stateOf (step (oneOp 0x87#8 0x81#8 0x00#8 0 0 false))).map view = some (0x02#8, (zspca false false false true false), 0x0001#16, some .ok) := by decide

/-- R120, W3. -/
theorem test_adc_B_example :
    (stateOf (step (oneOp 0x88#8 0x00#8 0x00#8 0 0 true))).map view = some (0x01#8, (zspca false false false false false), 0x0001#16, some .ok) := by decide

/-- R121: the carry-in alone carries out. -/
theorem test_adc_C_example :
    (stateOf (step (oneOp 0x89#8 0xFF#8 0x00#8 0 0 true))).map view = some (0x00#8, (zspca true false true true false), 0x0001#16, some .ok) := by decide

/-- R122: the largest sum. -/
theorem test_adc_D_example :
    (stateOf (step (oneOp 0x8A#8 0xFF#8 0xFF#8 0 0 true))).map view = some (0xFF#8, (zspca false true true true false), 0x0001#16, some .ok) := by decide

/-- R123. -/
theorem test_adc_E_example :
    (stateOf (step (oneOp 0x8B#8 0x14#8 0x01#8 0 0 false))).map view = some (0x15#8, (zspca false false false false false), 0x0001#16, some .ok) := by decide

/-- R124. -/
theorem test_adc_H_example :
    (stateOf (step (oneOp 0x8C#8 0xFE#8 0x55#8 0x00#8 0 true))).map view = some (0xFF#8, (zspca false true true false false), 0x0001#16, some .ok) := by decide

/-- R125. -/
theorem test_adc_L_example :
    (stateOf (step (oneOp 0x8D#8 0x7F#8 0x55#8 0 0x00#8 true))).map view = some (0x80#8, (zspca false true false false false), 0x0001#16, some .ok) := by decide

/-- R126. -/
theorem test_adc_M_example :
    (stateOf (step (machine { size := 0x0200, cells := [(0, 0x8E#8), (0x0100, 0x0F#8)] } { a := 0x00#8, b := 0, c := 0, d := 0, e := 0, h := 0x01#8, l := 0x00#8 } true))).map view = some (0x10#8, (zspca false false false false false), 0x0001#16, some .ok) := by decide

/-- R127. -/
theorem test_adc_A_example :
    (stateOf (step (oneOp 0x8F#8 0x80#8 0x00#8 0 0 true))).map view = some (0x01#8, (zspca false false false true false), 0x0001#16, some .ok) := by decide

/-- R140: NOP at PC 5 leaves A and Carry. -/
theorem test_nop_example :
    (stateOf (step { machine { size := 6, cells := [] } { a := 0x3C#8, b := 0, c := 0, d := 0, e := 0, h := 0, l := 0 } true
      with pc := 5#16 })).map view = some (0x3C#8, zspca false false false true false, 6#16, some .ok) := by decide

/-- V-NOP-02 and V-NOP-03 together: NOP at 0xFFFF keeps all five flags and PC wraps. -/
theorem test_nop_wraps_pc :
    (stateOf (step { State.reset with pc := 0xFFFF#16, flags := zspca true true true true true })).map view =
      some (0x00#8, zspca true true true true true, 0x0000#16, some .ok) := by decide

/-- V-M-06: M may point at the instruction itself. -/
theorem test_add_M_reads_own_opcode :
    (stateOf (step (oneOp 0x86#8 0x01#8 0 0 0 false))).map view =
      some (0x87#8, zspca false true true false false, 1#16, some .ok) := by decide

/-- V-M-04: an ADC M past the end changes the two outputs alone. -/
theorem test_adc_M_past_end :
    stateOf (step (machine { size := 0x0100, cells := [(0, 0x8E#8)] }
        { a := 0x22#8, b := 0, c := 0, d := 0, e := 0, h := 0xFF#8, l := 0xFF#8 } true)) =
      some { machine { size := 0x0100, cells := [(0, 0x8E#8)] }
          { a := 0x22#8, b := 0, c := 0, d := 0, e := 0, h := 0xFF#8, l := 0xFF#8 } true with
        status := .haltedOnError
        stepResult := some (.failed (.memoryOutOfRange .operand 0xFFFF#16)) } := by decide

/-- V-M-07: an unimplemented opcode is reported before a bad H:L is looked at. -/
theorem test_decode_before_operand :
    (stateOf (step (oneOp 0x76#8 0x01#8 0 0 0x01#8 false))).map (fun t => (t.status, t.stepResult)) =
      some (.haltedOnError, some (.failed (.unimplementedOpcode 0x76#8))) := by decide

/-- V-FETCH-01. -/
theorem test_fetch_past_end :
    (stateOf (step { oneOp 0x80#8 0x11#8 0 0 0 false with
      mem := { size := 4, cells := [] }, pc := 4#16 })).map view =
      some (0x11#8, zspca false false false false false, 4#16,
        some (.failed (.memoryOutOfRange .fetch 4#16))) := by decide

/-- V-UNIMPL-09: after an unimplemented opcode the host patches the byte and the next step completes. -/
theorem test_host_patches_and_retries :
    (stateOf (runEvents [.stepReq, .writeMem 0#16 0x00#8, .stepReq] (oneOp 0x76#8 0 0 0 0 false))).map
      (fun t => (t.pc, t.status, t.stepResult)) = some (1#16, .ready, some .ok) := by decide

/-- V-RESET-01 before and after its first step. -/
theorem test_construct_then_step :
    (stateOf (runEvents [.construct [0x80#8, 0x88#8]] State.reset)).map (fun t => (t.mem.size, t.status, t.stepResult)) =
        some (2, .ready, none) ∧
      (stateOf (runEvents [.construct [0x80#8, 0x88#8], .stepReq] State.reset)).map view =
        some (0x00#8, zspca true false true false false, 1#16, some .ok) := by decide

/-- R36: the host cannot write at or above MEM_SIZE. -/
theorem test_host_write_past_end :
    stateOf (hostStep (.writeMem 1#16 0x55#8) (oneOp 0x80#8 0 0 0 0 false)) = none := by decide

/-- A placed word runs as the first instruction after reset. -/
theorem test_placed_word_runs :
    stateOf (step (State.reset.withFetchWord 8 0x87)) = stateOf (exec .addA (State.reset.withFetchWord 8 0x87)) := by
  decide

/-! ## Witnesses: for each statement with hypotheses, a state and operands that meet them -/

/-- H:L one below `MEM_SIZE`, the highest cell that M can read. -/
def mAtTop (op : Byte) : State :=
  machine { size := 0x0100, cells := [(0, op), (0x00FF, 0x01#8)] }
    { a := 0x01#8, b := 0, c := 0, d := 0, e := 0, h := 0x00#8, l := 0xFF#8 } true

/-- H:L equal to `MEM_SIZE`, the first cell that does not exist. -/
def mPastEnd (op : Byte) : State :=
  machine { size := 0x0100, cells := [(0, op)] }
    { a := 0x01#8, b := 0, c := 0, d := 0, e := 0, h := 0x01#8, l := 0x00#8 } true

/-- PC equal to `MEM_SIZE`. -/
def pcPastEnd : State :=
  { oneOp 0x80#8 0x11#8 0 0 0 false with pc := 1#16 }

theorem witness_CarryInRule_and_ArithmeticReplacesAllFlags :
    (0x86#8, Instr.addM, Selector.m, false) ∈ Claims.arithRows ∧ Claims.Reads (mAtTop 0x86#8) .m 0x01#8 ∧
      (0x8A#8, Instr.adcD, Selector.reg .d, true) ∈ Claims.arithRows ∧
      Claims.Reads (mAtTop 0x86#8) (.reg .d) 0x00#8 ∧
      (zspca true true true true true).cy = (mAtTop 0x86#8).flags.cy := by
  refine ⟨by decide, ⟨by decide, by decide⟩, by decide, rfl, rfl⟩

theorem witness_MemoryOperandForms_and_OperandSelection :
    Claims.hlNat (mAtTop 0x86#8) + 1 = (mAtTop 0x86#8).mem.size ∧
      (mPastEnd 0x86#8).mem.size = Claims.hlNat (mPastEnd 0x86#8) := by decide

theorem witness_InstructionFrame :
    (∃ t, exec .nop (mAtTop 0x00#8) = .next t) ∧ (∃ t, exec .addM (mAtTop 0x86#8) = .next t ∧ t.stepResult = some .ok) ∧
      ∃ t, exec .adcM (mPastEnd 0x8E#8) = .next t ∧ t.stepResult ≠ some .ok :=
  ⟨⟨_, rfl⟩, ⟨_, rfl, by decide⟩, ⟨_, rfl, by decide⟩⟩

theorem witness_StepRunsDecodedInstruction_and_FetchPastEndStep :
    pcPastEnd.mem.size = pcPastEnd.pc.toNat ∧
      ((oneOp 0x90#8 0 0 0 0 false).pc.toNat + 1 = (oneOp 0x90#8 0 0 0 0 false).mem.size ∧
        decode ((oneOp 0x90#8 0 0 0 0 false).mem.cell 0) = .error (.unimplemented 0x90#8)) ∧
      decode ((oneOp 0x8F#8 0 0 0 0 false).mem.cell 0) = .ok .adcA := by decide

theorem witness_UnimplementedOpcodeStep :
    (oneOp 0x7F#8 0 0 0 0 false).pc.toNat < (oneOp 0x7F#8 0 0 0 0 false).mem.size ∧
      (oneOp 0x7F#8 0 0 0 0 false).mem.cell (oneOp 0x7F#8 0 0 0 0 false).pc.toNat = 0x7F#8 ∧
      decode 0x7F#8 = .error (.unimplemented 0x7F#8) := by decide

theorem witness_ErrorEntryIsPrecise_and_HaltedIsAbsorbing :
    ∃ t, step pcPastEnd = .next t ∧ t.stepResult = some (.failed (.memoryOutOfRange .fetch 1#16)) ∧
      t.status = .haltedOnError :=
  ⟨_, rfl, by decide, by decide⟩

theorem witness_StepOutcomes :
    pcPastEnd.mem.size ≤ pcPastEnd.pc.toNat ∧
      ((oneOp 0x90#8 0 0 0 0 false).pc.toNat < (oneOp 0x90#8 0 0 0 0 false).mem.size ∧
        Claims.Unimplemented ((oneOp 0x90#8 0 0 0 0 false).mem.cell 0)) ∧
      (¬ Claims.Unimplemented ((mPastEnd 0x8E#8).mem.cell 0) ∧ (mPastEnd 0x8E#8).mem.cell 0 ∈ [0x86#8, 0x8E#8] ∧
        (mPastEnd 0x8E#8).mem.size ≤ Claims.hlNat (mPastEnd 0x8E#8)) ∧
      (¬ Claims.Unimplemented ((mAtTop 0x8E#8).mem.cell 0) ∧ Claims.hlNat (mAtTop 0x8E#8) < (mAtTop 0x8E#8).mem.size) := by
  simp only [Claims.Unimplemented]
  decide

theorem witness_PcAdvance : ∃ t, step { State.reset with pc := 0xFFFF#16 } = .next t ∧ t.stepResult = some .ok :=
  ⟨_, rfl, by decide⟩

theorem witness_CoreNeverWritesMemory :
    Claims.KeepsMemory (.writePc 3#16) ∧ (∃ t, hostStep (.writePc 3#16) State.reset = .next t) ∧
      ∃ t, exec .addM (mAtTop 0x86#8) = .next t :=
  ⟨trivial, ⟨_, rfl⟩, ⟨_, rfl⟩⟩

theorem witness_ReadsReturnLatestWrite :
    State.reset.mem.wf ∧
      ∃ t, runEvents [.construct [0x80#8, 0x88#8], .writeMem 1#16 0x00#8, .stepReq] State.reset = .next t ∧
        (1#16).toNat < t.mem.size :=
  ⟨by decide, _, rfl, by decide⟩

theorem witness_HostMemoryWrite :
    (mAtTop 0x86#8).mem.wf ∧ (0x00FF#16).toNat < (mAtTop 0x86#8).mem.size ∧
      (mAtTop 0x86#8).mem.size ≤ (0x0100#16).toNat ∧
      ({ mAtTop 0x86#8 with pc := 0x00FF#16 } : State).pc = 0x00FF#16 := by decide

theorem witness_MemoryFormIsCanonical :
    (Memory.put { size := 4, cells := [(1, 0x05#8), (3, 0x07#8)] } 1 0x00#8).wf ∧
      (Memory.wf { size := 4, cells := [(3, 0x07#8)] }) ∧
      ∀ a : Nat, a < 4 →
        (Memory.put { size := 4, cells := [(1, 0x05#8), (3, 0x07#8)] } 1 0x00#8).cell a =
          Memory.cell { size := 4, cells := [(3, 0x07#8)] } a := by decide

theorem witness_Construction :
    ([0x80#8, 0x88#8] : List Byte).length ≤ 65536 ∧ (1#16).toNat < ([0x80#8, 0x88#8] : List Byte).length ∧
      ([0x80#8, 0x88#8] : List Byte).length ≤ (2#16).toNat ∧ 65536 < (List.replicate 65537 (0#8 : Byte)).length := by
  refine ⟨by decide, by decide, by decide, ?_⟩
  rw [List.length_replicate]
  decide

theorem witness_AssemblerTextReadsBack :
    (∀ c ∈ ([] ++ ['\t', ' '] ++ [' '] : List Char), c = ' ' ∨ c = '\t') ∧ (['\t', ' '] : List Char) ≠ [] := by
  simp

theorem witness_StepResultPort :
    ({ State.reset with stepResult := some .ok } : State).stepResult = some .ok ∧
      ({ State.reset with stepResult := some (.failed (.unimplementedOpcode 0x76#8)) } : State).stepResult =
        some (.failed (.unimplementedOpcode 0x76#8)) ∧
      ({ State.reset with stepResult := some (.failed (.memoryOutOfRange .operand 4#16)) } : State).stepResult =
        some (.failed (.memoryOutOfRange .operand 4#16)) := by decide

theorem witness_InvAfterConstruction : ∃ s, construct [0x80#8] = .next s :=
  ⟨_, rfl⟩

/-- A two-instruction program that meets the invariant. -/
def twoOps : State :=
  State.constructed (Memory.ofImage [0x80#8, 0x88#8])

theorem twoOps_inv : twoOps.Inv :=
  ⟨by decide, rfl, fun e h => by simp [twoOps] at h⟩

theorem witness_StepKeepsInv : twoOps.Inv ∧ ∃ t, step twoOps = .next t :=
  ⟨twoOps_inv, _, rfl⟩

theorem witness_EventsKeepInv :
    twoOps.Inv ∧ ∃ t, runEvents [.stepReq, .writeMem 1#16 0x76#8, .stepReq, .construct [0x00#8]] twoOps = .next t :=
  ⟨twoOps_inv, _, rfl⟩

theorem witness_SafeRunAdvances : RunSafe 2 twoOps :=
  ⟨_, rfl, by decide, _, rfl, by decide, trivial⟩

theorem witness_RecognisedCodeRuns :
    twoOps.Inv ∧ twoOps.pc.toNat + 2 = twoOps.mem.size ∧
      (∀ j : Nat, j < 2 → ¬ Claims.Unimplemented (twoOps.mem.cell (twoOps.pc.toNat + j))) ∧
      Claims.hlNat twoOps < twoOps.mem.size := by
  refine ⟨twoOps_inv, by decide, ?_, by decide⟩
  simp only [Claims.Unimplemented]
  decide

end Sys2Proof.Tests
end

section
/-! PROOFS. SP and INTE are storage that no step reads or writes (R24, R31), and a fetch past the end changes nothing
but the outputs (R27). -/

namespace Sys2Proof.Machine

/-! ## The state with another SP and INTE -/

/-- The state with SP and INTE replaced: what the host could have left in them. -/
def State.withSpInte (s : State) (sp : Word) (inte : Byte) : State :=
  { s with sp := sp, inte := inte }

@[simp] theorem State.withSpInte_flags (s : State) (sp : Word) (inte : Byte) :
    (s.withSpInte sp inte).flags = s.flags := rfl

/-! Each way a step ends commutes with the replacement. -/

@[simp] theorem State.raise_withSpInte (s : State) (sp : Word) (inte : Byte) (e : StepError) :
    (s.withSpInte sp inte).raise e = (s.raise e).withSpInte sp inte := rfl
@[simp] theorem State.complete_withSpInte (s : State) (sp : Word) (inte : Byte) :
    (s.withSpInte sp inte).complete = s.complete.withSpInte sp inte := rfl
@[simp] theorem State.addToA_withSpInte (s : State) (sp : Word) (inte b : Byte) (cin : Bool) :
    (s.withSpInte sp inte).addToA b cin = (s.addToA b cin).withSpInte sp inte := rfl

/-- No operand is read from SP or INTE. -/
@[simp] theorem State.operand_withSpInte (s : State) (sp : Word) (inte : Byte) (sel : Selector) :
    (s.withSpInte sp inte).operand sel = s.operand sel := by
  cases sel <;> rfl

/-! ## What ignores SP and INTE -/

/-- From `s` the operation `f` answers a next state that keeps SP and INTE, and from `s` with any other SP and INTE it
answers that same state with those (R24, R31). -/
def IgnoresSpInte (f : State → Host.Outcome State Fault Refusal) (s : State) : Prop :=
  ∀ (sp : Word) (inte : Byte), ∃ t, f s = .next t ∧ t.sp = s.sp ∧ t.inte = s.inte ∧
    f (s.withSpInte sp inte) = .next (t.withSpInte sp inte)

theorem execArith_ignoresSpInte (sel : Selector) (cin : Bool) (s : State) : IgnoresSpInte (execArith sel cin) s := by
  intro sp inte
  have hop := s.operand_withSpInte sp inte sel
  cases h : s.operand sel with
  | ok b =>
    refine ⟨s.addToA b cin, execArith_of_ok cin h, s.addToA_sp b cin, s.addToA_inte b cin, ?_⟩
    rw [execArith_of_ok cin (hop.trans h), State.addToA_withSpInte]
  | error e =>
    refine ⟨s.raise e, execArith_of_error cin h, s.raise_sp e, s.raise_inte e, ?_⟩
    rw [execArith_of_error cin (hop.trans h), State.raise_withSpInte]

theorem exec_ignoresSpInte (i : Instr) (s : State) : IgnoresSpInte (exec i) s := by
  intro sp inte
  simp only [exec_eq_form, State.withSpInte_flags]
  cases i.form with
  | nop => exact ⟨s.complete, rfl, s.complete_sp, s.complete_inte, by rw [s.complete_withSpInte]⟩
  | add sel => exact execArith_ignoresSpInte sel false s sp inte
  | adc sel => exact execArith_ignoresSpInte sel s.flags.cy s sp inte

/-- Fetch and decode look at PC and memory alone, so with SP and INTE replaced a step takes the same way: a fact about
the fetched cell is at once that fact for both states. -/
theorem step_ignoresSpInte (s : State) : IgnoresSpInte step s := by
  intro sp inte
  rcases Nat.lt_or_ge s.pc.toNat s.mem.size with hlt | hle
  · cases hd : decode (s.mem.cell s.pc.toNat) with
    | error e =>
      exact ⟨_, step_decode_error hlt hd, State.raise_sp _ _, State.raise_inte _ _,
        step_decode_error (s := s.withSpInte sp inte) hlt hd⟩
    | ok i =>
      rw [step_decode_ok hlt hd, step_decode_ok (s := s.withSpInte sp inte) hlt hd]
      exact exec_ignoresSpInte i s sp inte
  · exact ⟨_, step_fetch_error hle, State.raise_sp _ _, State.raise_inte _ _,
      step_fetch_error (s := s.withSpInte sp inte) hle⟩

/-! ## Runs -/

theorem core_run_zero (s : State) : Host.Core.run core 0 s = .next s := rfl

/-- A run whose first step answers a next state goes on from there. -/
theorem core_run_succ_of_next {s t : State} (k : Nat) (h : step s = .next t) :
    Host.Core.run core (k + 1) s = Host.Core.run core k t := by
  have hcore : core.step s = .next t := h
  simp [Host.Core.run, hcore]

theorem run_ignoresSpInte (k : Nat) (s : State) : IgnoresSpInte (Host.Core.run core k) s := by
  induction k generalizing s with
  | zero => exact fun sp inte => ⟨s, core_run_zero s, rfl, rfl, core_run_zero _⟩
  | succ k ih =>
    intro sp inte
    obtain ⟨u, hu, husp, huinte, hu'⟩ := step_ignoresSpInte s sp inte
    obtain ⟨t, ht, htsp, htinte, ht'⟩ := ih u sp inte
    exact ⟨t, (core_run_succ_of_next k hu).trans ht, htsp.trans husp, htinte.trans huinte,
      (core_run_succ_of_next k hu').trans ht'⟩

/-! ## The error entry's frame -/

/-- R166: error entry changes the two outputs alone. -/
theorem State.raise_sameButOutputs (s : State) (e : StepError) : Claims.SameButOutputs s (s.raise e) :=
  ⟨rfl, rfl, rfl, rfl, rfl, rfl⟩

end Sys2Proof.Machine

namespace Sys2Proof

open Sys2Proof.Machine

/-- Settles O22: by induction on the number of steps, from the one-step noninterference `step_ignoresSpInte`. -/
theorem spAndInteAreInert : Obligations.SpAndInteAreInert :=
  run_ignoresSpInte

/-- Settles O16: the failing fetch is an error entry, which changes the two outputs alone. -/
theorem fetchPastEndStep : Obligations.FetchPastEndStep :=
  fun s h => ⟨_, step_fetch_error h, s.raise_stepResult _, s.raise_sameButOutputs _⟩

end Sys2Proof
end

section
/-! PROOFS. What each event of the block interface leaves in memory: only a construction or a host write changes it
(R46), and a read returns what the latest of them left in the cell (R52). -/

namespace Sys2Proof.Machine

/-! ## The CORE -/

/-- No instruction writes memory, whether it completes or enters the operand error (R46). -/
theorem exec_mem {i : Instr} {s t : State} (h : exec i s = .next t) : t.mem = s.mem := by
  rcases exec_cases i s with ⟨-, hx⟩ | ⟨b, cin, -, hx⟩ | ⟨addr, -, -, -, hx⟩ <;> cases hx.symm.trans h
  · exact s.complete_mem
  · exact s.addToA_mem b cin
  · exact s.raise_mem _

/-- No step writes memory, whatever its outcome (R46). -/
theorem step_mem {s t : State} (h : step s = .next t) : t.mem = s.mem := by
  rcases step_cases s with ⟨e, -, hx⟩ | hx | ⟨b, cin, hx⟩ <;> cases hx.symm.trans h
  · exact s.raise_mem e
  · exact s.complete_mem
  · exact s.addToA_mem b cin

/-! ## The events of the block interface -/

theorem construct_eq_next {image : List Byte} {t : State} :
    construct image = .next t ↔
      image.length ≤ Config.addressSpace ∧ t = State.constructed (Memory.ofImage image) := by
  simp only [construct, imageWellFormed, decide_eq_true_eq]
  split <;> simp_all [eq_comm]

theorem hostWriteMem_eq_next {s t : State} {a : Word} {v : Byte} :
    hostWriteMem s a v = .next t ↔ a.toNat < s.mem.size ∧ t = { s with mem := s.mem.put a.toNat v } := by
  simp only [hostWriteMem]
  split <;> simp_all [eq_comm]

/-- An event that is neither a construction nor a host write to memory leaves memory as it was (R46). -/
theorem hostStep_mem_of_keepsMemory {ev : HostEvent} {s t : State} (hk : Claims.KeepsMemory ev)
    (h : hostStep ev s = .next t) : t.mem = s.mem := by
  cases ev with
  | construct image => exact hk.elim
  | writeMem a v => exact hk.elim
  | stepReq => exact step_mem h
  | writeReg r v => cases h; exact s.setReg_mem r v
  | writeFlag f v => cases h; exact s.setFlags_mem _
  | writeSp v => cases h; rfl
  | writePc v => cases h; rfl
  | writeInte v => cases h; rfl

/-- What an event makes of memory: a construction the image's memory, a host write the old memory with one existing
cell written, every other event nothing new. -/
theorem hostStep_mem_cases {ev : HostEvent} {s t : State} (h : hostStep ev s = .next t) :
    (∃ image, ev = .construct image ∧ image.length ≤ Config.addressSpace ∧ t.mem = Memory.ofImage image) ∨
      (∃ a v, ev = .writeMem a v ∧ a.toNat < s.mem.size ∧ t.mem = s.mem.put a.toNat v) ∨
      (Claims.KeepsMemory ev ∧ t.mem = s.mem) := by
  have keeps (hk : Claims.KeepsMemory ev) : Claims.KeepsMemory ev ∧ t.mem = s.mem :=
    ⟨hk, hostStep_mem_of_keepsMemory hk h⟩
  cases ev with
  | construct image =>
    obtain ⟨hlen, rfl⟩ := construct_eq_next.1 h
    exact .inl ⟨image, rfl, hlen, rfl⟩
  | writeMem a v =>
    obtain ⟨ha, rfl⟩ := hostWriteMem_eq_next.1 h
    exact .inr (.inl ⟨a, v, rfl, ha, rfl⟩)
  | _ => exact .inr (.inr (keeps trivial))

/-- Every event keeps memory's canonical form. -/
theorem hostStep_mem_wf {ev : HostEvent} {s t : State} (hwf : s.mem.wf) (h : hostStep ev s = .next t) :
    t.mem.wf := by
  rcases hostStep_mem_cases h with ⟨image, -, hlen, hm⟩ | ⟨a, v, -, ha, hm⟩ | ⟨-, hm⟩ <;> rw [hm]
  · exact Memory.ofImage_wf hlen
  · exact Memory.put_wf hwf ha v
  · exact hwf

theorem cellAfter_of_keepsMemory {ev : HostEvent} (hk : Claims.KeepsMemory ev) (a : Nat) (old : Byte) :
    Claims.cellAfter a old ev = old := by
  cases ev with
  | construct image => exact hk.elim
  | writeMem b v => exact hk.elim
  | _ => rfl

/-- Every event leaves in each cell what `Claims.cellAfter` says. -/
theorem hostStep_cell {ev : HostEvent} {s t : State} (hwf : s.mem.wf) (h : hostStep ev s = .next t) (a : Nat) :
    t.mem.cell a = Claims.cellAfter a (s.mem.cell a) ev := by
  rcases hostStep_mem_cases h with ⟨image, rfl, -, hm⟩ | ⟨b, v, rfl, -, hm⟩ | ⟨hk, hm⟩ <;> rw [hm]
  · exact Memory.cell_ofImage image a
  · by_cases hab : b.toNat = a
    · subst hab
      simpa [Claims.cellAfter] using Memory.cell_put_self hwf b.toNat v
    · simpa [Claims.cellAfter, hab] using Memory.cell_put_of_ne s.mem v (Ne.symm hab)
  · exact (cellAfter_of_keepsMemory hk a _).symm

/-! ## Sequences of events -/

theorem runEvents_cons_eq_next {ev : HostEvent} {evs : List HostEvent} {s t : State} :
    runEvents (ev :: evs) s = .next t ↔ ∃ u, hostStep ev s = .next u ∧ runEvents evs u = .next t := by
  simp only [runEvents]
  cases hostStep ev s <;> simp

/-- A sequence of events leaves in each cell what the events leave there one after the other (R52). -/
theorem runEvents_cell {evs : List HostEvent} {s t : State} (hwf : s.mem.wf) (h : runEvents evs s = .next t)
    (a : Nat) : t.mem.cell a = evs.foldl (Claims.cellAfter a) (s.mem.cell a) := by
  induction evs generalizing s with
  | nil => cases h; rfl
  | cons ev evs ih =>
    obtain ⟨u, hu, ht⟩ := runEvents_cons_eq_next.1 h
    rw [List.foldl_cons, ← hostStep_cell hwf hu a]
    exact ih (hostStep_mem_wf hwf hu) ht

/-! ## The host's read -/

theorem hostReadMem_of_lt {s : State} {a : Word} (h : a.toNat < s.mem.size) :
    hostReadMem s a = .next (s.mem.cell a.toNat) :=
  if_pos h

end Sys2Proof.Machine

namespace Sys2Proof

open Sys2Proof.Machine

/-- Settles O24: both read ports return the cell, and by induction on the events the cell holds what the latest of them
left there (`runEvents_cell`). -/
theorem readsReturnLatestWrite : Obligations.ReadsReturnLatestWrite := by
  intro evs s t hwf hrun a k ha
  rw [← runEvents_cell hwf hrun a.toNat]
  exact ⟨State.memRead_of_lt k ha, hostReadMem_of_lt ha⟩

/-- Settles O23: instructions keep the whole memory (`exec_mem`), and so does every event but a construction or a host
write to memory (`hostStep_mem_of_keepsMemory`). -/
theorem coreNeverWritesMemory : Obligations.CoreNeverWritesMemory := by
  refine ⟨fun i s t h => exec_mem h, fun ev s t hk h => ?_⟩
  rw [hostStep_mem_of_keepsMemory hk h]
  exact ⟨rfl, fun a => rfl⟩

end Sys2Proof
end

section
/-! PROOFS. The arithmetic unit against natural numbers (R81 to R90), the operand of each selector (R80), and from the
two what the sixteen additions make of A (R82, R92). -/

namespace Sys2Proof.Machine

/-! ## The adder and the flag logic -/

theorem bit_eq_toNat (b : Bool) : Claims.bit b = b.toNat := by
  cases b <;> rfl

theorem resultByte_eq_ofNat (i : BitVec 9) : resultByte i = BitVec.ofNat 8 i.toNat :=
  BitVec.eq_of_toNat_eq (by rw [resultByte_toNat, BitVec.toNat_ofNat])

/-- The low byte keeps the sum's bits 0 to 7. -/
theorem resultByte_getLsbD {k : Nat} (hk : k < 8) (i : BitVec 9) : (resultByte i).getLsbD k = i.toNat.testBit k := by
  rw [resultByte, BitVec.getLsbD_extractLsb', decide_eq_true hk, Bool.true_and, Nat.zero_add, BitVec.getLsbD]

theorem popcount_eq_countP (b : Byte) : popcount b = (List.range 8).countP b.getLsbD := by
  simp only [popcount, List.range_succ, List.range_zero, List.countP_append, List.countP_nil, List.countP_singleton,
    zero_add, Bool.toNat, Bool.cond_eq_ite]

/-- R87: only the sum's low eight bits count for Parity, so counting them in the sum or in the result is the same. -/
theorem parityEven_resultByte (i : BitVec 9) : parityEven (resultByte i) = Claims.evenOnes i.toNat := by
  have hcount : (List.range 8).countP (resultByte i).getLsbD = (List.range 8).countP i.toNat.testBit :=
    List.countP_congr fun k hk => by rw [resultByte_getLsbD (List.mem_range.1 hk)]
  rw [parityEven, popcount_eq_countP, hcount, Claims.evenOnes]

/-- R84: the result is zero exactly where the sum is a multiple of 256. -/
theorem resultByte_beq_zero (i : BitVec 9) : (resultByte i == 0x00#8) = decide (i.toNat % 256 = 0) := by
  simp only [← resultByte_toNat, beq_eq_decide, BitVec.toNat_eq, BitVec.toNat_ofNat, Nat.zero_mod]

/-- R85: bit 7 of the sum says that its low byte is at least 128. -/
theorem getLsbD_seven (i : BitVec 9) : i.getLsbD 7 = decide (128 ≤ i.toNat % 256) := by
  rw [BitVec.getLsbD, Nat.testBit_eq_decide_div_mod_eq, decide_eq_decide]
  omega

/-- R83: the five flags of a 9-bit sum are those of the same number. -/
theorem computeFlags_eq_flagsOf (i : BitVec 9) : computeFlags i = Claims.flagsOf i.toNat := by
  rw [computeFlags, Claims.flagsOf, resultByte_beq_zero, getLsbD_seven, parityEven_resultByte]

/-- R90 over natural numbers, since the 9-bit sum is the exact one (`intermediate_toNat`). -/
theorem alu_eq_exact (a b : Byte) (cin : Bool) :
    alu a b cin = (BitVec.ofNat 8 (a.toNat + b.toNat + Claims.bit cin),
      Claims.flagsOf (a.toNat + b.toNat + Claims.bit cin)) := by
  rw [alu, resultByte_eq_ofNat, computeFlags_eq_flagsOf, intermediate_toNat, bit_eq_toNat]

/-! ## The operand -/

/-- R42: the address of M is 256 times H plus L. -/
theorem State.hl_toNat (s : State) : s.hl.toNat = Claims.hlNat s := by
  rw [State.hl, State.reg_h, State.reg_l, BitVec.toNat_append, ← Nat.shiftLeft_add_eq_or_of_lt s.regs.l.isLt,
    Nat.shiftLeft_eq, mul_comm]
  rfl

theorem reads_reg_iff {s : State} {r : Reg8} {b : Byte} : Claims.Reads s (.reg r) b ↔ b = s.reg r := by
  cases r <;> rfl

theorem State.operand_m_of_lt {s : State} (h : Claims.hlNat s < s.mem.size) :
    s.operand .m = .ok (s.mem.cell (Claims.hlNat s)) := by
  rw [← s.hl_toNat] at h ⊢
  exact State.memRead_of_lt .operand h

theorem State.operand_m_of_le {s : State} (h : s.mem.size ≤ Claims.hlNat s) :
    s.operand .m = .error (.memoryOutOfRange .operand (BitVec.ofNat 16 (Claims.hlNat s))) := by
  rw [← s.hl_toNat] at h ⊢
  rw [BitVec.ofNat_toNat, BitVec.setWidth_eq]
  exact State.memRead_of_le .operand h

/-- Where the selector's operand exists, the operand read answers it. -/
theorem State.operand_of_reads {s : State} {sel : Selector} {b : Byte} (h : Claims.Reads s sel b) :
    s.operand sel = .ok b := by
  cases sel with
  | reg r => rw [reads_reg_iff.1 h]; rfl
  | m => obtain ⟨hlt, rfl⟩ := h; exact State.operand_m_of_lt hlt

/-! ## The additions -/

theorem State.addToA_eq_arithNext (s : State) (b : Byte) (cin : Bool) :
    s.addToA b cin = Claims.arithNext s b (Claims.bit cin) := by
  have hpc : s.pc + 1#16 = BitVec.ofNat 16 (s.pc.toNat + 1) := by
    rw [BitVec.ofNat_add, BitVec.ofNat_toNat, BitVec.setWidth_eq]
  rw [State.addToA, alu_eq_exact, Claims.arithNext, ← hpc]
  rfl

theorem arithNext_a_toNat (s : State) (b : Byte) (c : Nat) :
    (Claims.arithNext s b c).regs.a.toNat = (s.regs.a.toNat + b.toNat + c) % 256 :=
  BitVec.toNat_ofNat _ _

/-- An addition replaces all five flags, so it leaves nothing of those it found. -/
theorem arithNext_of_other_flags (s : State) (f : Flags) (b : Byte) (c : Nat) :
    Claims.arithNext { s with flags := f } b c = Claims.arithNext s b c := rfl

/-- No operand is read from the flags. -/
theorem reads_of_other_flags {s : State} {sel : Selector} {b : Byte} (f : Flags) (h : Claims.Reads s sel b) :
    Claims.Reads { s with flags := f } sel b := by
  cases sel with
  | reg r => exact reads_reg_iff.2 (reads_reg_iff.1 h)
  | m => exact h

/-- R82: an ADD form completes with no carry-in wherever its operand exists. -/
theorem exec_add_of_reads {i : Instr} {sel : Selector} {s : State} {b : Byte} (hi : i.form = .add sel)
    (h : Claims.Reads s sel b) : exec i s = .next (Claims.arithNext s b 0) := by
  rw [exec_eq_form, hi]
  exact (execArith_of_ok false (State.operand_of_reads h)).trans (by rw [s.addToA_eq_arithNext]; rfl)

/-- R82: an ADC form completes with the Carry flag it found wherever its operand exists. -/
theorem exec_adc_of_reads {i : Instr} {sel : Selector} {s : State} {b : Byte} (hi : i.form = .adc sel)
    (h : Claims.Reads s sel b) : exec i s = .next (Claims.arithNext s b (Claims.bit s.flags.cy)) := by
  rw [exec_eq_form, hi]
  exact (execArith_of_ok s.flags.cy (State.operand_of_reads h)).trans (by rw [s.addToA_eq_arithNext])

/-- The form of each of the sixteen additions is what its row says. -/
theorem form_of_mem_arithRows :
    ∀ row ∈ Claims.arithRows, row.2.1.form = if row.2.2.2 then .adc row.2.2.1 else .add row.2.2.1 := by
  decide

end Sys2Proof.Machine

namespace Sys2Proof

open Sys2Proof.Machine

/-- Settles O4: the 9-bit sum never overflows (`intermediate_toNat`), and each flag of it is that of the number. -/
theorem aluMatchesExactArithmetic : Obligations.AluMatchesExactArithmetic := by
  intro a b cin
  refine ⟨by rw [intermediate_toNat, bit_eq_toNat], ?_⟩
  have hlow (n : Nat) : BitVec.ofNat 8 (n % 256) = BitVec.ofNat 8 n :=
    BitVec.eq_of_toNat_eq (Nat.mod_mod n 256)
  rw [alu_eq_exact, hlow]

/-- Settles O6: each row is an ADD or an ADC of its selector (`form_of_mem_arithRows`); ADD's next state does not
mention the flags it found. -/
theorem carryInRule : Obligations.CarryInRule := by
  rintro ⟨op, i, sel, carry⟩ hrow s b hb
  have hi := form_of_mem_arithRows _ hrow
  cases carry with
  | false =>
    refine ⟨_, exec_add_of_reads hi hb, arithNext_a_toNat s b 0, fun _ f => ?_⟩
    rw [exec_add_of_reads hi (reads_of_other_flags f hb), arithNext_of_other_flags]
  | true => exact ⟨_, exec_adc_of_reads hi hb, arithNext_a_toNat s b _, nofun⟩

/-- Settles O7: the operand is read before A is written, and an addition writes no register but A. -/
theorem sourceMayBeDestination : Obligations.SourceMayBeDestination := by
  intro s
  refine ⟨⟨_, exec_add_of_reads rfl rfl, ?_⟩, ⟨_, exec_adc_of_reads rfl rfl, ?_⟩, ?_⟩
  · rw [arithNext_a_toNat, two_mul, add_zero]
  · rw [arithNext_a_toNat, two_mul]
  · simp only [List.forall_mem_cons]
    exact ⟨⟨_, exec_add_of_reads rfl rfl, arithNext_a_toNat _ _ _, rfl, rfl, rfl⟩,
      ⟨_, exec_add_of_reads rfl rfl, arithNext_a_toNat _ _ _, rfl, rfl, rfl⟩,
      ⟨_, exec_adc_of_reads rfl rfl, arithNext_a_toNat _ _ _, rfl, rfl, rfl⟩,
      ⟨_, exec_adc_of_reads rfl rfl, arithNext_a_toNat _ _ _, rfl, rfl, rfl⟩, nofun⟩

/-- Settles O5: a register read cannot fail, and the M read is bounded at the address 256 H + L (`State.hl_toNat`). -/
theorem operandSelection : Obligations.OperandSelection :=
  fun s => ⟨fun r => ⟨s.reg r, reads_reg_iff.2 rfl, rfl⟩, s.hl_toNat, State.operand_m_of_lt, State.operand_m_of_le⟩

end Sys2Proof
end

section
/-! PROOFS. The fetch of a byte that is no recognised opcode (R143, R161): the host reads that byte, and only the two
outputs differ. -/

namespace Sys2Proof.Machine

/-- R164: after an unimplemented opcode the payload port answers the byte reported. -/
@[simp] theorem hostReadOpcode_raise_unimplementedOpcode (s : State) (op : Byte) :
    hostReadOpcode (s.raise (.unimplementedOpcode op)) = .next op := rfl

end Sys2Proof.Machine

namespace Sys2Proof

open Sys2Proof.Machine

/-- Settles O15: the step is the error entry carrying the fetched byte (`step_decode_error`), whose frame is
`State.raise_sameButOutputs`. -/
theorem unimplementedOpcodeStep : Obligations.UnimplementedOpcodeStep := by
  rintro s _ hpc rfl hd
  exact ⟨_, step_decode_error hpc hd, s.raise_stepResult _, hostReadOpcode_raise_unimplementedOpcode s _,
    s.raise_sameButOutputs _⟩

end Sys2Proof
end

section
/-! PROOFS. A step that reports an error is the error entry of its state with that error, so only the two outputs differ
(R166). -/

namespace Sys2Proof.Machine

/-- A step that reports an error is the error entry with that same error; the two completing outcomes report Ok. -/
theorem step_eq_raise_of_failed {s t : State} {e : StepError} (h : step s = .next t)
    (he : t.stepResult = some (.failed e)) : t = s.raise e := by
  rcases step_cases s with ⟨d, -, hx⟩ | hx | ⟨b, cin, hx⟩ <;> cases hx.symm.trans h
  · cases (s.raise_stepResult d).symm.trans he
    rfl
  · cases s.complete_stepResult.symm.trans he
  · cases (s.addToA_stepResult b cin).symm.trans he

end Sys2Proof.Machine

namespace Sys2Proof

open Sys2Proof.Machine

/-- Settles O17: the failing step is the error entry (`step_eq_raise_of_failed`), which is an update of STATUS and
`step_result`. -/
theorem errorEntryIsPrecise : Obligations.ErrorEntryIsPrecise := by
  intro s t e h he
  obtain rfl := step_eq_raise_of_failed h he
  rfl

end Sys2Proof
end

section
/-! PROOFS. What construction leaves: every register and flag zero (R181, R183), and of memory exactly the image, as the
read primitive sees it (R185). -/

namespace Sys2Proof.Machine

/-! ## Registers and flags -/

@[simp] theorem State.constructed_reg (m : Memory) (r : Reg8) : (State.constructed m).reg r = 0x00#8 := by
  cases r <;> rfl

@[simp] theorem State.constructed_flags_get (m : Memory) (f : FlagName) :
    (State.constructed m).flags.get f = false := by
  cases f <;> rfl

/-! ## The image's memory -/

theorem Memory.cell_ofImage_of_lt {image : List Byte} {a : Nat} (h : a < image.length) :
    (Memory.ofImage image).cell a = image[a] := by
  rw [Memory.cell_ofImage, List.getD_eq_getElem image _ h]

theorem State.memRead_constructed_of_lt {image : List Byte} {a : Word} (k : AccessKind) (h : a.toNat < image.length) :
    (State.constructed (Memory.ofImage image)).memRead k a = .ok image[a.toNat] := by
  rw [State.memRead_of_lt k h, State.constructed_mem, Memory.cell_ofImage_of_lt h]

theorem State.memRead_constructed_of_le {image : List Byte} {a : Word} (k : AccessKind) (h : image.length ≤ a.toNat) :
    (State.constructed (Memory.ofImage image)).memRead k a = .error (.memoryOutOfRange k a) :=
  State.memRead_of_le k h

end Sys2Proof.Machine

namespace Sys2Proof

open Sys2Proof.Machine

/-- Settles O27: an image within the bound is accepted (`construct_eq_next`), and a read of the constructed memory
answers the image's byte below its length and the error from there on. -/
theorem constructionGivesZeroesAndImage : Obligations.ConstructionGivesZeroesAndImage := by
  intro image hlen
  exact ⟨State.constructed (Memory.ofImage image), construct_eq_next.2 ⟨hlen, rfl⟩, State.constructed_reg _,
    State.constructed_flags_get _,
    fun _ k => ⟨State.memRead_constructed_of_lt k, State.memRead_constructed_of_le k⟩⟩

end Sys2Proof
end

section
/-! PROOFS. The decoder and the encoder invert each other, field by field (R61 to R65), and the bytes left over are the
unimplemented ones (R66). -/

namespace Sys2Proof

open Sys2Proof.Machine

/-! ## Selectors and forms -/

theorem Selector.field_ofField (sss : BitVec 3) : (Selector.ofField sss).field = sss := by
  revert sss
  decide

theorem Instr.ofForm_form (i : Instr) : Instr.ofForm i.form = i := by
  cases i <;> rfl

theorem Instr.form_ofForm (f : Form) : (Instr.ofForm f).form = f := by
  rcases f with _ | ⟨⟨⟨⟩⟩ | _⟩ | ⟨⟨⟨⟩⟩ | _⟩ <;> rfl

/-! ## The fields of a byte -/

/-- A byte is its high nibble, the bit `k` and the field `sss`, as the ARITH pattern cuts it (R61). -/
theorem byte_eq_fields (op : Byte) :
    op.extractLsb' 4 4 ++ BitVec.ofBool (op.getLsbD 3) ++ op.extractLsb' 0 3 = op := by
  revert op
  decide

theorem encodeForm_of_decodeForm {op : Byte} {f : Form} (h : decodeForm op = some f) : encodeForm f = op := by
  unfold decodeForm at h
  split_ifs at h with hzero hhigh hk <;> cases h
  · exact hzero.symm
  · conv_rhs => rw [← byte_eq_fields op, hhigh, hk]
    rw [encodeForm, Selector.field_ofField]
    rfl
  · conv_rhs => rw [← byte_eq_fields op, hhigh, Bool.eq_true_of_not_eq_false hk]
    rw [encodeForm, Selector.field_ofField]
    rfl

theorem decodeForm_encodeForm (f : Form) : decodeForm (encodeForm f) = some f := by
  rcases f with _ | ⟨⟨⟨⟩⟩ | _⟩ | ⟨⟨⟨⟩⟩ | _⟩ <;> rfl

/-- R65: the high nibble is 1000 exactly from 0x80 to 0x8F. -/
theorem high_nibble_eq_iff (op : Byte) : op.extractLsb' 4 4 = 0b1000#4 ↔ 0x80 ≤ op.toNat ∧ op.toNat ≤ 0x8F := by
  have hlt := op.isLt
  simp only [← BitVec.toNat_inj, BitVec.extractLsb'_toNat, BitVec.toNat_ofNat, Nat.shiftRight_eq_div_pow]
  omega

theorem decodeForm_eq_none_iff {op : Byte} : decodeForm op = none ↔ Claims.Unimplemented op := by
  have hzero : op = 0x00#8 ↔ op.toNat = 0 := BitVec.toNat_inj.symm
  simp only [decodeForm, high_nibble_eq_iff, hzero, Claims.Unimplemented]
  split_ifs <;> simp only [false_iff, true_iff] <;> omega

/-! ## The decoder -/

theorem decode_of_decodeForm {op : Byte} {f : Form} (h : decodeForm op = some f) :
    decode op = .ok (Instr.ofForm f) := by
  rw [decode, h]

theorem decode_encodeForm (f : Form) : decode (encodeForm f) = .ok (Instr.ofForm f) :=
  decode_of_decodeForm (decodeForm_encodeForm f)

theorem decode_encode (i : Instr) : decode (encode i) = .ok i := by
  rw [encode, decode_encodeForm, Instr.ofForm_form]

theorem decode_of_unimplemented {op : Byte} (h : Claims.Unimplemented op) :
    decode op = .error (.unimplemented op) := by
  rw [decode, decodeForm_eq_none_iff.2 h]

theorem decode_eq_ok_iff {op : Byte} {i : Instr} : decode op = .ok i ↔ encode i = op := by
  refine ⟨fun h => ?_, fun h => h ▸ decode_encode i⟩
  cases hf : decodeForm op with
  | none => cases h.symm.trans (decode_of_unimplemented (decodeForm_eq_none_iff.1 hf))
  | some f =>
    cases h.symm.trans (decode_of_decodeForm hf)
    rw [encode, Instr.form_ofForm, encodeForm_of_decodeForm hf]

/-- R65, R66: a byte is a recognised opcode or an unimplemented one. -/
theorem exists_decode_ok_iff {op : Byte} : (∃ i, decode op = .ok i) ↔ ¬ Claims.Unimplemented op := by
  rw [← decodeForm_eq_none_iff]
  cases hf : decodeForm op with
  | none => simp [decode_of_unimplemented (decodeForm_eq_none_iff.1 hf)]
  | some f => simp [decode_of_decodeForm hf]

theorem decode_eq_error_iff {op : Byte} {e : DecodeError} :
    decode op = .error e ↔ e = .unimplemented op ∧ Claims.Unimplemented op := by
  refine ⟨fun h => ⟨decode_error_byte h, ?_⟩, fun ⟨he, hu⟩ => he ▸ decode_of_unimplemented hu⟩
  by_contra hu
  obtain ⟨i, hi⟩ := exists_decode_ok_iff.2 hu
  cases h.symm.trans hi

/-- Settles O2: encoding inverts decoding on each form's fields (`decode_eq_ok_iff`), and what is left is refused. -/
theorem decodeEncodeAgree : Obligations.DecodeEncodeAgree := by
  refine fun op => ⟨fun _ => decode_eq_ok_iff, fun _ => decode_eq_error_iff, ?_⟩
  rw [← not_iff_not, ← exists_decode_ok_iff]
  simp only [decode_eq_ok_iff, not_forall, not_not]

/-- Settles O1: each word is the encoding of its instruction. -/
theorem tableWordsDecode : Obligations.TableWordsDecode := by
  refine ⟨?_, ?_, ?_, ?_, ?_, ?_, ?_⟩ <;> exact decode_eq_ok_iff.2 rfl

end Sys2Proof
end

section
/-! PROOFS. Every step advances or raises. An Ok step moves PC by one and can write nothing else but A and the flags; a
step that fails is an error entry (R144, R166). From these two follow the outcomes of a step, its frame, its runs, and
what STATUS and `step_result` say afterwards. -/

namespace Sys2Proof.Machine

/-! ## The two ways an instruction ends -/

/-- `t` is an Ok end of a step from `s`: PC is one further, and what only A and the flags could tell apart is equal. -/
structure State.AdvancesTo (s t : State) : Prop where
  stepResult : t.stepResult = some .ok
  status : t.status = .ready
  pc : t.pc = s.pc + 1#16
  reg : ∀ r : Reg8, r ≠ .a → t.reg r = s.reg r
  sp : t.sp = s.sp
  inte : t.inte = s.inte
  mem : t.mem = s.mem

theorem State.complete_advances (s : State) : s.AdvancesTo s.complete :=
  ⟨rfl, rfl, rfl, fun _ _ => rfl, rfl, rfl, rfl⟩

theorem State.addToA_advances (s : State) (b : Byte) (cin : Bool) : s.AdvancesTo (s.addToA b cin) :=
  ⟨rfl, rfl, rfl, fun _ hr => RegFile.get_set_of_ne s.regs _ hr, rfl, rfl, rfl⟩

/-- R26: the advance is modulo 2^16. -/
theorem State.AdvancesTo.pc_toNat {s t : State} (h : s.AdvancesTo t) : t.pc.toNat = (s.pc.toNat + 1) % 65536 := by
  rw [h.pc, BitVec.toNat_add]
  rfl

theorem State.AdvancesTo.hlNat {s t : State} (h : s.AdvancesTo t) : Claims.hlNat t = Claims.hlNat s := by
  have hh : t.regs.h = s.regs.h := h.reg .h nofun
  have hl : t.regs.l = s.regs.l := h.reg .l nofun
  rw [Claims.hlNat, hh, hl, Claims.hlNat]

/-! ## Instructions -/

/-- The two instructions with a memory operand, by their form. -/
theorem form_mem_m_iff (i : Instr) : i.form ∈ [Form.add .m, Form.adc .m] ↔ i ∈ [Instr.addM, .adcM] := by
  cases i <;> decide

/-- An instruction whose operand can be read completes. -/
theorem exec_advances {i : Instr} {s : State} (h : i ∈ [Instr.addM, .adcM] → Claims.hlNat s < s.mem.size) :
    ∃ t, exec i s = .next t ∧ s.AdvancesTo t := by
  rcases exec_cases i s with ⟨-, hx⟩ | ⟨b, cin, -, hx⟩ | ⟨addr, hm, -, hle, -⟩
  · exact ⟨_, hx, s.complete_advances⟩
  · exact ⟨_, hx, s.addToA_advances b cin⟩
  · have hlt := h ((form_mem_m_iff i).1 hm)
    rw [s.hl_toNat] at hle
    omega

/-- R163: where H:L has no cell, the two M forms enter the operand error with that address. -/
theorem exec_operand_error {i : Instr} {s : State} (hi : i ∈ [Instr.addM, .adcM]) (h : s.mem.size ≤ Claims.hlNat s) :
    exec i s = .next (s.raise (.memoryOutOfRange .operand (BitVec.ofNat 16 (Claims.hlNat s)))) := by
  have hop := State.operand_m_of_le h
  simp only [List.mem_cons, List.not_mem_nil, or_false] at hi
  rcases hi with rfl | rfl
  · exact execArith_of_error false hop
  · exact execArith_of_error s.flags.cy hop

/-- Every instruction answers a next state: it advances to it, or it is an error entry. -/
theorem exec_advances_or_raises (i : Instr) (s : State) :
    ∃ t, exec i s = .next t ∧ (s.AdvancesTo t ∨ ∃ e, t = s.raise e) := by
  rcases exec_cases i s with ⟨-, hx⟩ | ⟨b, cin, -, hx⟩ | ⟨addr, -, -, -, hx⟩
  · exact ⟨_, hx, .inl s.complete_advances⟩
  · exact ⟨_, hx, .inl (s.addToA_advances b cin)⟩
  · exact ⟨_, hx, .inr ⟨_, rfl⟩⟩

/-! ## Steps -/

/-- What a step's next state is: an advance, or an error entry with a genuine error. -/
theorem step_advances_or_raises {s t : State} (h : step s = .next t) :
    s.AdvancesTo t ∨ ∃ e, e.Genuine s.mem.size ∧ t = s.raise e := by
  rcases step_cases s with ⟨e, he, hx⟩ | hx | ⟨b, cin, hx⟩ <;> cases hx.symm.trans h
  · exact .inr ⟨e, he, rfl⟩
  · exact .inl s.complete_advances
  · exact .inl (s.addToA_advances b cin)

theorem exists_step_eq_next (s : State) : ∃ t, step s = .next t := by
  rcases step_cases s with ⟨e, -, hx⟩ | hx | ⟨b, cin, hx⟩ <;> exact ⟨_, hx⟩

/-- A step that ends Ok is an advance. -/
theorem advancesTo_of_step_ok {s t : State} (h : step s = .next t) (hok : t.stepResult = some .ok) :
    s.AdvancesTo t := by
  rcases step_advances_or_raises h with hadv | ⟨e, -, rfl⟩
  · exact hadv
  · cases hok

/-- The two opcodes that read memory at H:L (R64). -/
theorem encode_mem_m_iff (i : Instr) : encode i ∈ [0x86#8, 0x8E#8] ↔ i ∈ [Instr.addM, .adcM] := by
  cases i <;> decide

/-- The step at a recognised opcode whose operand can be read. -/
theorem step_advances {s : State} (hpc : s.pc.toNat < s.mem.size)
    (hrec : ¬ Claims.Unimplemented (s.mem.cell s.pc.toNat))
    (hop : s.mem.cell s.pc.toNat ∈ [0x86#8, 0x8E#8] → Claims.hlNat s < s.mem.size) :
    ∃ t, step s = .next t ∧ s.AdvancesTo t := by
  obtain ⟨i, hd⟩ := exists_decode_ok_iff.2 hrec
  rw [← decode_eq_ok_iff.1 hd, encode_mem_m_iff] at hop
  rw [step_decode_ok hpc hd]
  exact exec_advances hop

/-- The step at an M form whose operand has no cell. -/
theorem step_operand_error {s : State} (hpc : s.pc.toNat < s.mem.size)
    (hrec : ¬ Claims.Unimplemented (s.mem.cell s.pc.toNat)) (hm : s.mem.cell s.pc.toNat ∈ [0x86#8, 0x8E#8])
    (hle : s.mem.size ≤ Claims.hlNat s) :
    step s = .next (s.raise (.memoryOutOfRange .operand (BitVec.ofNat 16 (Claims.hlNat s)))) := by
  obtain ⟨i, hd⟩ := exists_decode_ok_iff.2 hrec
  rw [← decode_eq_ok_iff.1 hd, encode_mem_m_iff] at hm
  rw [step_decode_ok hpc hd]
  exact exec_operand_error hm hle

/-! ## The outputs -/

/-- The code read after a step is that of the recorded result (R164). -/
theorem hostReadCode_of_stepResult {s : State} {r : StepResult} (h : s.stepResult = some r) :
    hostReadCode s = .next r.code := by
  rw [hostReadCode, h]

theorem hostReadAddr_of_stepResult {s : State} {k : AccessKind} {a : Word}
    (h : s.stepResult = some (.failed (.memoryOutOfRange k a))) : hostReadAddr s = .next a := by
  rw [hostReadAddr, h]

/-- No check or write of a step looks at STATUS or `step_result`, so a step after an error entry is the step before
it. -/
theorem step_raise (s : State) (e : StepError) : step (s.raise e) = step s := rfl

/-! ## Runs -/

/-- A state that steps to itself is where every run from it ends. -/
theorem run_eq_self_of_step {t : State} (h : step t = .next t) (k : Nat) : Host.Core.run core k t = .next t := by
  induction k with
  | zero => exact core_run_zero t
  | succ k ih => exact (core_run_succ_of_next k h).trans ih

/-- Progress in the addresses modulo 2^16: an advance keeps memory and H:L, so what held of the next `k + 1` cells
holds of the next `k` after it. -/
theorem runSafe_of_recognised {k : Nat} {s : State}
    (hcode : ∀ j < k, (s.pc + BitVec.ofNat 16 j).toNat < s.mem.size ∧
      ¬ Claims.Unimplemented (s.mem.cell (s.pc + BitVec.ofNat 16 j).toNat))
    (hhl : Claims.hlNat s < s.mem.size) : RunSafe k s := by
  induction k generalizing s with
  | zero => trivial
  | succ k ih =>
    obtain ⟨hpc, hrec⟩ := hcode 0 k.succ_pos
    rw [BitVec.add_zero] at hpc hrec
    obtain ⟨t, ht, hadv⟩ := step_advances hpc hrec fun _ => hhl
    refine ⟨t, ht, hadv.stepResult, ih (fun j hj => ?_) (by rwa [hadv.hlNat, hadv.mem])⟩
    have hnext : t.pc + BitVec.ofNat 16 j = s.pc + BitVec.ofNat 16 (j + 1) := by
      rw [hadv.pc, BitVec.add_assoc, Nat.add_comm j 1, BitVec.ofNat_add]
    rw [hnext, hadv.mem]
    exact hcode (j + 1) (Nat.succ_lt_succ hj)

end Sys2Proof.Machine

namespace Sys2Proof

open Sys2Proof.Machine

/-- Settles O37: below MEM_SIZE, which is at most 65536, PC plus `j` does not wrap, so `runSafe_of_recognised` applies. -/
theorem recognisedCodeRuns : Obligations.RecognisedCodeRuns := by
  rintro k s ⟨⟨-, -, hbound⟩, -, -⟩ hend hcode hhl
  refine runSafe_of_recognised (fun j hj => ?_) hhl
  have haddr : (s.pc + BitVec.ofNat 16 j).toNat = s.pc.toNat + j := by
    simp only [Config.addressSpace] at hbound
    rw [BitVec.toNat_add, BitVec.toNat_ofNat]
    omega
  rw [haddr]
  exact ⟨by omega, hcode j hj⟩

/-- Settles O36: by induction on the number of steps, each an advance. -/
theorem safeRunAdvances : Obligations.SafeRunAdvances := by
  intro k
  induction k with
  | zero => exact fun s _ => ⟨s, core_run_zero s, (Nat.mod_eq_of_lt s.pc.isLt).symm, fun _ _ => rfl, rfl, rfl, rfl⟩
  | succ k ih =>
    rintro s ⟨t, ht, hok, hsafe⟩
    have hadv := advancesTo_of_step_ok ht hok
    obtain ⟨u, hu, hpc, hreg, hsp, hinte, hmem⟩ := ih t hsafe
    refine ⟨u, (core_run_succ_of_next k ht).trans hu, ?_, fun r hr => (hreg r hr).trans (hadv.reg r hr),
      hsp.trans hadv.sp, hinte.trans hadv.inte, hmem.trans hadv.mem⟩
    rw [hpc, hadv.pc_toNat]
    omega

/-- Settles O20: no check and no write of a step looks at the two outputs. -/
theorem statusDoesNotBlock : Obligations.StatusDoesNotBlock :=
  fun _ _ _ => rfl

/-- Settles O21: the halted state is an error entry, and a step from it does what the failing step did (`step_raise`). -/
theorem haltedIsAbsorbing : Obligations.HaltedIsAbsorbing := by
  intro s t h hhalt
  rcases step_advances_or_raises h with hadv | ⟨e, -, rfl⟩
  · cases hadv.status.symm.trans hhalt
  · exact run_eq_self_of_step ((step_raise s e).trans h)

/-- Settles O19: an advance moves PC by one (`State.AdvancesTo.pc_toNat`), an error entry keeps it. -/
theorem pcAdvance : Obligations.PcAdvance := by
  intro s t h
  rcases step_advances_or_raises h with hadv | ⟨e, -, rfl⟩
  · exact .inl ⟨hadv.stepResult, hadv.pc_toNat⟩
  · exact .inr ⟨⟨e, s.raise_stepResult e⟩, s.raise_pc e⟩

/-- Settles O18: one step lemma for each cause, in the order of the checks (R165). -/
theorem stepOutcomes : Obligations.StepOutcomes := by
  intro s
  obtain ⟨t, ht⟩ := exists_step_eq_next s
  refine ⟨t, ht, fun hpc => ?fetch, fun hpc hun => ?decode, fun hpc hrec hm hle => ?operand, fun hpc hrec hop => ?ok⟩
  case fetch =>
    cases ht.symm.trans (step_fetch_error hpc)
    exact ⟨hostReadCode_of_stepResult (s.raise_stepResult _), hostReadAddr_of_stepResult (s.raise_stepResult _),
      s.raise_status _⟩
  case decode =>
    cases ht.symm.trans (step_decode_error hpc (decode_of_unimplemented hun))
    exact ⟨hostReadCode_of_stepResult (s.raise_stepResult _), hostReadOpcode_raise_unimplementedOpcode s _,
      s.raise_status _⟩
  case operand =>
    cases ht.symm.trans (step_operand_error hpc hrec hm hle)
    exact ⟨hostReadCode_of_stepResult (s.raise_stepResult _), hostReadAddr_of_stepResult (s.raise_stepResult _),
      s.raise_status _⟩
  case ok =>
    obtain ⟨u, hu, hadv⟩ := step_advances hpc hrec hop
    cases ht.symm.trans hu
    exact ⟨hostReadCode_of_stepResult hadv.stepResult, hadv.status⟩

/-- Settles O14: fetch, decode and execution one after the other; what the execution answers is an advance or an error
entry, which is not Ok. -/
theorem stepRunsDecodedInstruction : Obligations.StepRunsDecodedInstruction := by
  intro s
  refine ⟨fun hpc => fetchPastEndStep s hpc, fun hpc hd => ?_, fun hpc i hd => ⟨step_decode_ok hpc hd, ?_⟩⟩
  · exact ⟨_, step_decode_error hpc hd, s.raise_stepResult _, s.raise_sameButOutputs _⟩
  · obtain ⟨t, ht, hadv | ⟨e, rfl⟩⟩ := exec_advances_or_raises i s
    · exact ⟨t, ht, fun _ => hadv.pc⟩
    · exact ⟨_, ht, fun hok => by cases hok⟩

/-- Settles O12: an advance keeps all but A, the flags and PC, an error entry keeps those too, and NOP only
completes. -/
theorem instructionFrame : Obligations.InstructionFrame := by
  intro i s t h
  rcases exec_cases i s with ⟨-, hx⟩ | ⟨b, cin, hne, hx⟩ | ⟨addr, hm, -, -, hx⟩ <;> cases hx.symm.trans h
  · exact ⟨fun _ _ => rfl, rfl, rfl, rfl, fun _ => rfl, fun _ => ⟨rfl, rfl⟩,
      fun hno => absurd s.complete_stepResult hno⟩
  · exact ⟨(s.addToA_advances b cin).reg, rfl, rfl, rfl, fun _ => rfl, fun hnop => absurd hnop hne,
      fun hno => absurd (s.addToA_stepResult b cin) hno⟩
  · exact ⟨fun _ _ => rfl, rfl, rfl, rfl, fun _ => rfl, fun _ => ⟨rfl, rfl⟩, fun _ => ⟨rfl, rfl, rfl⟩⟩

end Sys2Proof
end

section
/-! PROOFS. The 17 instructions one by one: each opcode and the whole next state over natural numbers (the rules R100 to
R107, R120 to R127, R140), and the flags of an addition (R83 to R88). -/

namespace Sys2Proof.Machine

/-- The row that the statements give a register form: opcode, instruction, and the operand in the register file. -/
def registerRow (form : Selector → Form) (r : Reg8) : Byte × Instr × (RegFile → Byte) :=
  (encodeForm (form (.reg r)), Instr.ofForm (form (.reg r)), (RegFile.get · r))

/-- An addition whose operand exists completes with the carry-in that its row names (R82). -/
theorem exec_of_mem_arithRows {row : Byte × Instr × Selector × Bool} (hrow : row ∈ Claims.arithRows) {s : State}
    {b : Byte} (hb : Claims.Reads s row.2.2.1 b) :
    exec row.2.1 s = .next (Claims.arithNext s b (if row.2.2.2 then Claims.bit s.flags.cy else 0)) := by
  obtain ⟨op, i, sel, carry⟩ := row
  have hi := form_of_mem_arithRows _ hrow
  cases carry with
  | false => exact exec_add_of_reads hi hb
  | true => exact exec_adc_of_reads hi hb

end Sys2Proof.Machine

namespace Sys2Proof

open Sys2Proof.Machine

/-- Settles O8: the rows are `registerRow` of the seven registers, and a register operand can always be read. -/
theorem addRegisterForms : Obligations.AddRegisterForms :=
  List.forall_mem_map (f := registerRow .add) (l := [.b, .c, .d, .e, .h, .l, .a]) |>.2 fun r _ =>
    ⟨decode_encodeForm (.add (.reg r)), fun _ =>
      exec_add_of_reads (Instr.form_ofForm (.add (.reg r))) (reads_reg_iff.2 rfl)⟩

/-- Settles O9: as for ADD, with the Carry flag found as the carry-in. -/
theorem adcRegisterForms : Obligations.AdcRegisterForms :=
  List.forall_mem_map (f := registerRow .adc) (l := [.b, .c, .d, .e, .h, .l, .a]) |>.2 fun r _ =>
    ⟨decode_encodeForm (.adc (.reg r)), fun _ =>
      exec_adc_of_reads (Instr.form_ofForm (.adc (.reg r))) (reads_reg_iff.2 rfl)⟩

/-- Settles O10: the cell at H:L is the operand where it exists, and `exec_operand_error` is the other side. -/
theorem memoryOperandForms : Obligations.MemoryOperandForms :=
  ⟨decode_encode .addM, decode_encode .adcM, fun _ =>
    ⟨fun hlt => ⟨exec_add_of_reads rfl ⟨hlt, rfl⟩, exec_adc_of_reads rfl ⟨hlt, rfl⟩⟩,
      fun hle _ hi => exec_operand_error hi hle⟩⟩

/-- Settles O11: NOP is the completion alone. -/
theorem nopCompletes : Obligations.NopCompletes := by
  refine ⟨decode_encode .nop, fun s => ?_⟩
  have hpc : BitVec.ofNat 16 (s.pc.toNat + 1) = s.pc + 1#16 := by
    rw [BitVec.ofNat_add, BitVec.ofNat_toNat, BitVec.setWidth_eq]
  rw [hpc]
  rfl

/-- Settles O13: the next state of an addition (`exec_of_mem_arithRows`) has the flags of the sum, and of the flags
found it mentions at most the Carry. -/
theorem arithmeticReplacesAllFlags : Obligations.ArithmeticReplacesAllFlags := by
  refine ⟨computeFlags_ac, fun row hrow s b hb => ⟨_, exec_of_mem_arithRows hrow hb, rfl, rfl, fun f hf => ?_⟩⟩
  have hcarry : (if row.2.2.2 then Claims.bit f.cy else 0) = if row.2.2.2 then Claims.bit s.flags.cy else 0 := by
    split
    · rw [hf ‹_›]
    · rfl
  rw [exec_of_mem_arithRows hrow (reads_of_other_flags f hb), arithNext_of_other_flags, hcarry]

end Sys2Proof
end

section
/-! PROOFS. The canonical form determines the cell list, and the invariant holds after every construction and is kept by
every step and every event. -/

namespace Sys2Proof.Machine

/-! ## The canonical form -/

/-- A canonical list holds exactly the cells that read as something listed. -/
theorem CellsWf.mem_iff {cs : List Host.Cell} (h : CellsWf cs) (c : Host.Cell) :
    c ∈ cs ↔ lookupCell cs c.1 = c.2 ∧ c.2 ≠ Config.unlistedByte := by
  induction cs with
  | nil => simp only [lookupCell, List.not_mem_nil, false_iff]; exact fun ⟨he, hne⟩ => hne he.symm
  | cons p rest ih =>
    obtain ⟨hlt, hne, hrest⟩ := cellsWf_cons.1 h
    obtain ⟨a, w⟩ := p
    obtain ⟨k, v⟩ := c
    by_cases hk : k = a
    · subst hk
      have hnot : (k, v) ∉ rest := fun hmem => Nat.lt_irrefl k (hlt _ hmem)
      simp only [lookupCell, List.mem_cons, hnot, Prod.mk.injEq, true_and, or_false, if_true]
      exact ⟨fun hv => ⟨hv.symm, hv ▸ hne⟩, fun hv => hv.1.symm⟩
    · simpa [lookupCell, hk] using ih hrest

/-- Two canonical lists that read the same at every address are the same list: they have the same entries in the same
order. -/
theorem CellsWf.eq_of_lookupCell_eq {cs ds : List Host.Cell} (hc : CellsWf cs) (hd : CellsWf ds)
    (h : ∀ a, lookupCell cs a = lookupCell ds a) : cs = ds := by
  have : Std.Irrefl fun p q : Host.Cell => p.1 < q.1 := ⟨fun p => Nat.lt_irrefl p.1⟩
  have : Std.Antisymm fun p q : Host.Cell => p.1 < q.1 := ⟨fun _ _ hlt hgt => absurd hlt (Nat.lt_asymm hgt)⟩
  exact List.Pairwise.eq_of_mem_iff hc.1 hd.1 fun c => by rw [hc.mem_iff, hd.mem_iff, h]

/-- A canonical memory reads as the unlisted byte wherever it has no cell. -/
theorem Memory.cell_of_size_le {m : Memory} (h : m.wf) {a : Nat} (ha : m.size ≤ a) :
    m.cell a = Config.unlistedByte := by
  obtain ⟨hcells, hsize, -⟩ := m.wf_iff.1 h
  by_contra hne
  exact Nat.not_lt.2 ha (hsize _ ((hcells.mem_iff (a, m.cell a)).2 ⟨rfl, hne⟩))

/-! ## The invariant -/

theorem State.constructed_inv {m : Memory} (h : m.wf) : (State.constructed m).Inv :=
  ⟨h, rfl, nofun⟩

theorem State.Inv.of_advancesTo {s t : State} (h : s.Inv) (hadv : s.AdvancesTo t) : t.Inv := by
  refine ⟨hadv.mem ▸ h.1, ?_, fun e he => ?_⟩
  · rw [hadv.status, hadv.stepResult]
    rfl
  · cases hadv.stepResult.symm.trans he

theorem State.Inv.raise {s : State} (h : s.Inv) {e : StepError} (he : e.Genuine s.mem.size) : (s.raise e).Inv := by
  refine ⟨h.1, rfl, fun d hd => ?_⟩
  cases hd
  exact he

theorem step_inv {s t : State} (h : s.Inv) (hstep : step s = .next t) : t.Inv := by
  rcases step_advances_or_raises hstep with hadv | ⟨e, he, rfl⟩
  · exact h.of_advancesTo hadv
  · exact h.raise he

/-- What leaves the two outputs and MEM_SIZE alone and keeps memory's form keeps the invariant: every host write does. -/
theorem State.Inv.of_outputs_eq {s t : State} (h : s.Inv) (hwf : t.mem.wf) (hsize : t.mem.size = s.mem.size)
    (hstatus : t.status = s.status) (hresult : t.stepResult = s.stepResult) : t.Inv := by
  obtain ⟨-, hagree, hgenuine⟩ := h
  refine ⟨hwf, ?_, fun e he => ?_⟩
  · rw [hstatus, hresult, hagree]
  · rw [hsize]
    exact hgenuine e (hresult ▸ he)

theorem construct_inv {image : List Byte} {s : State} (h : construct image = .next s) : s.Inv := by
  obtain ⟨hlen, rfl⟩ := construct_eq_next.1 h
  exact State.constructed_inv (Memory.ofImage_wf hlen)

theorem hostStep_inv {ev : HostEvent} {s t : State} (h : s.Inv) (hev : hostStep ev s = .next t) : t.Inv := by
  have hwf := hostStep_mem_wf h.1 hev
  cases ev with
  | construct image => exact construct_inv hev
  | stepReq => exact step_inv h hev
  | writeMem a v =>
    obtain ⟨-, rfl⟩ := hostWriteMem_eq_next.1 hev
    exact h.of_outputs_eq hwf (s.mem.put_size _ v) rfl rfl
  | _ => cases hev; exact h.of_outputs_eq hwf rfl rfl rfl

end Sys2Proof.Machine

namespace Sys2Proof

open Sys2Proof.Machine

/-- Settles O26: the cells below MEM_SIZE agree by assumption, those above read as unlisted in both. -/
theorem memoryFormIsCanonical : Obligations.MemoryFormIsCanonical := by
  intro m n hm hn hsize hcell
  have hall (a : Nat) : m.cell a = n.cell a := by
    rcases Nat.lt_or_ge a m.size with hlt | hge
    · exact hcell a hlt
    · rw [Memory.cell_of_size_le hm hge, Memory.cell_of_size_le hn (hsize ▸ hge)]
  have hcells : m.cells = n.cells := (m.wf_iff.1 hm).1.eq_of_lookupCell_eq (n.wf_iff.1 hn).1 hall
  cases m
  cases n
  cases hsize
  cases hcells
  rfl

/-- Settles O32: the reset state is a constructed one with canonical memory. -/
theorem resetMeetsInv : Obligations.ResetMeetsInv :=
  State.constructed_inv State.reset_mem_wf

/-- Settles O33: an accepted image gives canonical memory, and nothing is recorded yet. -/
theorem invAfterConstruction : Obligations.InvAfterConstruction :=
  fun _ _ h => construct_inv h

/-- Settles O34: a step advances or raises a genuine error, and keeps memory. -/
theorem stepKeepsInv : Obligations.StepKeepsInv :=
  fun _ _ h hstep => step_inv h hstep

/-- Settles O35: by induction on the events, from `hostStep_inv`. -/
theorem eventsKeepInv : Obligations.EventsKeepInv := by
  intro evs
  induction evs with
  | nil => rintro s t h ⟨⟩; exact h
  | cons ev evs ih =>
    intro s t h hrun
    obtain ⟨u, hu, ht⟩ := runEvents_cons_eq_next.1 hrun
    exact ih u t (hostStep_inv h hu) ht

end Sys2Proof
end

section
/-! PROOFS. The block interface: what each host write changes (R34, R36, R54), what a construction leaves beyond
registers and memory (R180 to R186), and what the outputs read as (R164). -/

namespace Sys2Proof.Machine

theorem hostWriteMem_of_le {s : State} {a : Word} (v : Byte) (h : s.mem.size ≤ a.toNat) :
    hostWriteMem s a v = .fault (.hostAddressAbsent a) :=
  if_neg (Nat.not_lt.2 h)

theorem construct_of_too_long {image : List Byte} (h : Config.addressSpace < image.length) :
    construct image = .refused (.imageTooLong image.length) := by
  rw [construct, imageWellFormed, decide_eq_false (Nat.not_le.2 h)]
  rfl

theorem hostReadOpcode_of_ok {s : State} (h : s.stepResult = some .ok) :
    hostReadOpcode s = .refused .payloadNotValid := by
  rw [hostReadOpcode, h]

theorem hostReadOpcode_of_unimplementedOpcode {s : State} {op : Byte}
    (h : s.stepResult = some (.failed (.unimplementedOpcode op))) : hostReadOpcode s = .next op := by
  rw [hostReadOpcode, h]

theorem hostReadOpcode_of_memoryOutOfRange {s : State} {k : AccessKind} {a : Word}
    (h : s.stepResult = some (.failed (.memoryOutOfRange k a))) : hostReadOpcode s = .refused .payloadNotValid := by
  rw [hostReadOpcode, h]

theorem hostReadAddr_of_ok {s : State} (h : s.stepResult = some .ok) : hostReadAddr s = .refused .payloadNotValid := by
  rw [hostReadAddr, h]

theorem hostReadAddr_of_unimplementedOpcode {s : State} {op : Byte}
    (h : s.stepResult = some (.failed (.unimplementedOpcode op))) : hostReadAddr s = .refused .payloadNotValid := by
  rw [hostReadAddr, h]

theorem code_memoryOutOfRange (k : AccessKind) (a : Word) :
    StepResult.code (.failed (.memoryOutOfRange k a)) = if k = .fetch then 2#2 else 3#2 := by
  cases k <;> rfl

end Sys2Proof.Machine

namespace Sys2Proof

open Sys2Proof.Machine

/-- Settles O25: the written cell holds the value and no other cell changes (`Memory.cell_put_self`,
`Memory.cell_put_of_ne`); the fetch is a read of that cell. -/
theorem hostMemoryWrite : Obligations.HostMemoryWrite := by
  refine fun s a v hwf => ⟨fun ha => ?_, hostWriteMem_of_le v⟩
  have hcell := Memory.cell_put_self hwf a.toNat v
  refine ⟨_, hostWriteMem_eq_next.2 ⟨ha, rfl⟩, hcell, fun _ hj => Memory.cell_put_of_ne s.mem v hj, rfl, rfl, ?_⟩
  rintro rfl
  exact (State.memRead_of_lt .fetch (by exact ha)).trans (congrArg Except.ok hcell)

/-- Settles O28: an accepted image gives the constructed state, whose fields these are; a longer one is refused. -/
theorem constructionOtherState : Obligations.ConstructionOtherState :=
  fun _ => ⟨fun hlen => ⟨_, construct_eq_next.2 ⟨hlen, rfl⟩, rfl, rfl, rfl, rfl, rfl, rfl⟩, construct_of_too_long⟩

/-- Settles O29: a written register or flag reads back and no other changes; the three pointers are fields of their
own. -/
theorem hostRegisterWrites : Obligations.HostRegisterWrites :=
  fun s => ⟨fun r v => ⟨_, rfl, s.regs.get_set_self r v, fun _ hq => s.regs.get_set_of_ne v hq, rfl⟩,
    fun f v => ⟨_, rfl, s.flags.get_put_self f v, fun _ hq => s.flags.get_put_of_ne v hq, rfl⟩,
    fun _ => rfl, fun _ => rfl, fun _ => rfl⟩

/-- Settles O30: each port by the recorded result. -/
theorem stepResultPort : Obligations.StepResultPort := by
  refine fun s op k a => ⟨fun h => ?_, fun h => ?_, fun h => ?_⟩
  · exact ⟨hostReadCode_of_stepResult h, hostReadOpcode_of_ok h, hostReadAddr_of_ok h⟩
  · exact ⟨hostReadCode_of_stepResult h, hostReadOpcode_of_unimplementedOpcode h,
      hostReadAddr_of_unimplementedOpcode h⟩
  · rw [hostReadCode_of_stepResult h, code_memoryOutOfRange]
    exact ⟨rfl, hostReadAddr_of_stepResult h, hostReadOpcode_of_memoryOutOfRange h⟩

/-- Settles O31: over the 32 flag sets. -/
theorem flagByteLayout : Obligations.FlagByteLayout := by
  rintro ⟨z, s, p, cy, ac⟩
  revert z s p cy ac
  decide

end Sys2Proof
end

section
/-! PROOFS. The assembler text (R69): how a line is cut into words, and that the words of a form read as that form. -/

namespace Sys2Proof.Machine

/-! ## Words -/

/-- Blanks before the first word are skipped. -/
theorem asmWords_blanks_append {pre : List Char} (hpre : ∀ c ∈ pre, isBlank c = true) (cs : List Char) :
    asmWords (pre ++ cs) [] = asmWords cs [] := by
  induction pre with
  | nil => rfl
  | cons c pre ih =>
    obtain ⟨hc, hpre⟩ := List.forall_mem_cons.1 hpre
    simpa [asmWords, hc] using ih hpre

/-- The characters of a word join the word being read. -/
theorem asmWords_word_append {w : List Char} (hw : ∀ c ∈ w, isBlank c = false) (cs acc : List Char) :
    asmWords (w ++ cs) acc = asmWords cs (acc ++ w) := by
  induction w generalizing acc with
  | nil => rw [List.append_nil, List.nil_append]
  | cons c w ih =>
    obtain ⟨hc, hw⟩ := List.forall_mem_cons.1 hw
    simpa [asmWords, hc] using ih hw (acc ++ [c])

/-- The blanks after a word end it. -/
theorem asmWords_blanks_after_word {mid acc : List Char} (hmid : ∀ c ∈ mid, isBlank c = true) (hne : mid ≠ [])
    (hacc : acc ≠ []) (cs : List Char) : asmWords (mid ++ cs) acc = acc :: asmWords cs [] := by
  cases mid with
  | nil => exact absurd rfl hne
  | cons c mid =>
    obtain ⟨hc, hmid⟩ := List.forall_mem_cons.1 hmid
    simpa [asmWords, hc, hacc] using asmWords_blanks_append hmid cs

/-- The end of the line ends the last word, after any blanks. -/
theorem asmWords_blanks_at_end {post acc : List Char} (hpost : ∀ c ∈ post, isBlank c = true) (hacc : acc ≠ []) :
    asmWords post acc = [acc] := by
  cases post with
  | nil => simp [asmWords, hacc]
  | cons c post => simpa [asmWords] using asmWords_blanks_after_word hpost (List.cons_ne_nil c post) hacc []

theorem asmWords_one_word {pre w post : List Char} (hpre : ∀ c ∈ pre, isBlank c = true)
    (hw : ∀ c ∈ w, isBlank c = false) (hne : w ≠ []) (hpost : ∀ c ∈ post, isBlank c = true) :
    asmWords (pre ++ w ++ post) [] = [w] := by
  rw [List.append_assoc, asmWords_blanks_append hpre, asmWords_word_append hw, List.nil_append,
    asmWords_blanks_at_end hpost hne]

theorem asmWords_two_words {pre w mid v post : List Char} (hpre : ∀ c ∈ pre, isBlank c = true)
    (hw : ∀ c ∈ w, isBlank c = false) (hwne : w ≠ []) (hmid : ∀ c ∈ mid, isBlank c = true) (hmne : mid ≠ [])
    (hv : ∀ c ∈ v, isBlank c = false) (hvne : v ≠ []) (hpost : ∀ c ∈ post, isBlank c = true) :
    asmWords (pre ++ w ++ mid ++ v ++ post) [] = [w, v] := by
  simp only [List.append_assoc]
  rw [asmWords_blanks_append hpre, asmWords_word_append hw, List.nil_append, asmWords_blanks_after_word hmid hmne hwne,
    asmWords_word_append hv, List.nil_append, asmWords_blanks_at_end hpost hvne]

/-! ## Forms -/

theorem selectorOfName_name (sel : Selector) : selectorOfName (Selector.name sel) = some sel := by
  rcases sel with ⟨⟨⟩⟩ | _ <;> rfl

theorem formOfWords_words (f : Form) : formOfWords (Form.words f) = some f := by
  cases f with
  | nop => rfl
  | add sel => exact congrArg (Option.map Form.add) (selectorOfName_name sel)
  | adc sel => exact congrArg (Option.map Form.adc) (selectorOfName_name sel)

theorem isBlank_name (sel : Selector) : isBlank (Selector.name sel) = false := by
  rcases sel with ⟨⟨⟩⟩ | _ <;> rfl

/-- A line with the words of a form reads as that form's instruction. -/
theorem parseAsm_of_asmWords {line : List Char} {f : Form} (h : asmWords line [] = Form.words f) :
    parseAsm line = some (Instr.ofForm f) := by
  rw [parseAsm, h, formOfWords_words]
  rfl

/-! ## Lines -/

section Lines

variable {pre mid post : List Char}
variable (hpre : ∀ c ∈ pre, isBlank c = true) (hmid : ∀ c ∈ mid, isBlank c = true) (hne : mid ≠ [])
  (hpost : ∀ c ∈ post, isBlank c = true)

include hpre hpost

theorem parseAsm_nop : parseAsm (pre ++ ['N', 'O', 'P'] ++ post) = some .nop :=
  parseAsm_of_asmWords (f := .nop) (asmWords_one_word hpre (by simp [isBlank]) nofun hpost)

include hmid hne

theorem parseAsm_add (sel : Selector) :
    parseAsm (pre ++ ['A', 'D', 'D'] ++ mid ++ [Selector.name sel] ++ post) = some (Instr.ofForm (.add sel)) :=
  parseAsm_of_asmWords (f := .add sel)
    (asmWords_two_words hpre (by simp [isBlank]) nofun hmid hne (by simp [isBlank_name]) nofun hpost)

theorem parseAsm_adc (sel : Selector) :
    parseAsm (pre ++ ['A', 'D', 'C'] ++ mid ++ [Selector.name sel] ++ post) = some (Instr.ofForm (.adc sel)) :=
  parseAsm_of_asmWords (f := .adc sel)
    (asmWords_two_words hpre (by simp [isBlank]) nofun hmid hne (by simp [isBlank_name]) nofun hpost)

end Lines

/-- The row that the statement gives an operand: its name and the two instructions that take it. -/
def asmRow (sel : Selector) : Char × Instr × Instr :=
  (Selector.name sel, Instr.ofForm (.add sel), Instr.ofForm (.adc sel))

/-- A printed line is one of the lines read, with no blanks but the one before the operand. -/
theorem parseAsm_printAsm (i : Instr) : parseAsm (printAsm i) = some i := by
  have hnil : ∀ c ∈ ([] : List Char), isBlank c = true := nofun
  have hone : ∀ c ∈ [' '], isBlank c = true := by simp [isBlank]
  rw [printAsm]
  conv_rhs => rw [← Instr.ofForm_form i]
  cases i.form with
  | nop => exact parseAsm_nop hnil hnil
  | add sel => exact parseAsm_add hnil hone nofun hnil sel
  | adc sel => exact parseAsm_adc hnil hone nofun hnil sel

end Sys2Proof.Machine

namespace Sys2Proof

open Sys2Proof.Machine

/-- Settles O3: the line's words are those of the form whatever the blanks (`asmWords_one_word`, `asmWords_two_words`),
for each of the eight operands, and a printed line is such a line. -/
theorem assemblerTextReadsBack : Obligations.AssemblerTextReadsBack := by
  refine ⟨fun pre mid post hblank hne => ?_, parseAsm_printAsm⟩
  have hisBlank : ∀ c ∈ pre ++ mid ++ post, isBlank c = true := by simpa [isBlank] using hblank
  rw [List.forall_mem_append, List.forall_mem_append] at hisBlank
  obtain ⟨⟨hpre, hmid⟩, hpost⟩ := hisBlank
  refine ⟨parseAsm_nop hpre hpost, ?_⟩
  exact List.forall_mem_map (f := asmRow) (l := [.reg .b, .reg .c, .reg .d, .reg .e, .reg .h, .reg .l, .m, .reg .a])
    |>.2 fun sel _ => ⟨parseAsm_add hpre hmid hne hpost sel, parseAsm_adc hpre hmid hne hpost sel⟩

end Sys2Proof
end
